-- ==== Sys2Proof/Word.lean ====
section
/-! DEFINITION. The word types of the decoder. Every value of the hardware is an unsigned integer of a
stated width (spec/00_scope.md section 5, spec/46_common_laws.md R170). -/

namespace Sys2Proof

/-- A byte is 8 bits (spec/00_scope.md section 5). -/
abbrev Byte := BitVec 8

/-- A 16-bit RGB565 value, red in the most significant bits (spec/30_encoding.md R44). -/
abbrev PackedColor16 := BitVec 16

/-- "A sequence of sixteen, one per texel": entry `i` belongs to the texel with linear index `i`
(spec/30_encoding.md R47). These are values inside one request, never state (spec/10_state.md R11). -/
abbrev Lanes (α : Type) := Fin 16 → α

end Sys2Proof
end

