-- ==== Sys2Proof/Config.lean ====
section
/-! DEFINITION. The implementation parameters of spec/00_scope.md section 4 that are plain numbers.
All are fixed by the spec. `NUM_INSTANCES` is an argument of the model: it is the number of ports a
`State` holds (`State.numInstances`). The spec leaves no value free, so no opaque constant stands here. -/

namespace Sys2Proof.Config

/-- Bytes of the operand `arg` (spec/30_encoding.md R50). -/
def argBytes : Nat := 16

/-- Bytes of a request, `op` and `arg` (spec/30_encoding.md R50). -/
def requestBytes : Nat := 17

/-- Texels along each side of a tile (spec/30_encoding.md R47). -/
def tileSide : Nat := 4

end Sys2Proof.Config
end

