-- ==== Sys2Proof/Syntax.lean ====
section
/-! DEFINITION. Requests, the sixteen operations with their decoded operands, the three block layouts,
and the bulk call, as syntax. -/

namespace Sys2Proof

/-- A request `(op, arg)` (spec/10_state.md R13). `arg` is held as the 128-bit integer
`A = LE(arg[0 .. 15])` of spec/30_encoding.md R50, so that `arg[k] = A[8k+7 : 8k]`. -/
structure Request where
  op  : Byte
  arg : BitVec 128
deriving DecidableEq, Repr

/-- The fields of a BC1 block (spec/30_encoding.md R41). -/
structure Bc1Block where
  color0       : PackedColor16
  color1       : PackedColor16
  colorIndices : BitVec 32
deriving DecidableEq, Repr

/-- The fields of a BC2 block (spec/30_encoding.md R42). -/
structure Bc2Block where
  alphaBits    : BitVec 64
  color0       : PackedColor16
  color1       : PackedColor16
  colorIndices : BitVec 32
deriving DecidableEq, Repr

/-- The fields of a BC3 block (spec/30_encoding.md R43). -/
structure Bc3Block where
  alpha0         : Byte
  alpha1         : Byte
  alphaIndexBits : BitVec 48
  color0         : PackedColor16
  color1         : PackedColor16
  colorIndices   : BitVec 32
deriving DecidableEq, Repr

/-- The names of the operations (spec/30_encoding.md R51), one per row of spec/opcode_table.json. -/
inductive Op where
  | decBc1 | decBc2 | decBc3 | decBc1a
  | expand5 | expand6 | reduce5 | reduce6 | unpack565
  | mix | pal4 | palBc1
  | idx2 | idx3
  | alpha4 | ramp8
deriving DecidableEq, Repr

/-- One request with its operand cut into the fields its operation reads (spec/30_encoding.md R53),
one constructor per row of spec/opcode_table.json. The bits an operation ignores are not part of it. -/
inductive Instr where
  | decBc1 (block : Bc1Block)
  | decBc2 (block : Bc2Block)
  | decBc3 (block : Bc3Block)
  | decBc1a (block : Bc1Block)
  | expand5 (n : BitVec 5)
  | expand6 (n : BitVec 6)
  | reduce5 (n8 : Byte)
  | reduce6 (n8 : Byte)
  | unpack565 (c : PackedColor16)
  | mix (v0 v1 : Byte) (w0 w1 : BitVec 3)
  | pal4 (color0 color1 : PackedColor16)
  | palBc1 (color0 color1 : PackedColor16)
  | idx2 (ci : BitVec 32)
  | idx3 (ai : BitVec 48)
  | alpha4 (ab : BitVec 64)
  | ramp8 (a0 a1 : Byte)
deriving DecidableEq, Repr

/-- The operation an instruction requests. -/
def Instr.op : Instr → Op
  | .decBc1 _ => .decBc1
  | .decBc2 _ => .decBc2
  | .decBc3 _ => .decBc3
  | .decBc1a _ => .decBc1a
  | .expand5 _ => .expand5
  | .expand6 _ => .expand6
  | .reduce5 _ => .reduce5
  | .reduce6 _ => .reduce6
  | .unpack565 _ => .unpack565
  | .mix _ _ _ _ => .mix
  | .pal4 _ _ => .pal4
  | .palBc1 _ _ => .palBc1
  | .idx2 _ => .idx2
  | .idx3 _ => .idx3
  | .alpha4 _ => .alpha4
  | .ramp8 _ _ => .ramp8

/-- The arguments of BULK_DECODE but its buffer (spec/45_bulk_driver.md R121): `fmt` is 1, 2 or 3 for
BC1, BC2, BC3 and any other value is unsupported; `alpha` is a boolean (U14); sizes are unbounded. -/
structure BulkCall where
  fmt    : Nat
  alpha  : Bool
  width  : Nat
  height : Nat
deriving DecidableEq, Repr

end Sys2Proof
end

