-- ==== Sys2Proof/WellFormed.lean ====
section
/-! DEFINITION. Which requests and calls are legal. Operand fields carry their exact widths in their
types, so what is left to check is: the length of a request given as bytes, the one operand-level
reserved case, and the sizes of a bulk call. -/

namespace Sys2Proof

/-- A request is 17 bytes and nothing else (spec/30_encoding.md R50). -/
def requestWf (bytes : List Byte) : Bool := bytes.length == Config.requestBytes

/-- Every instruction is legal but MIX with both weights zero, "one operand-level reserved case"
(spec/30_encoding.md R52, spec/60_exceptions.md R148). -/
def Instr.wf : Instr → Bool
  | .decBc1 _ => true
  | .decBc2 _ => true
  | .decBc3 _ => true
  | .decBc1a _ => true
  | .expand5 _ => true
  | .expand6 _ => true
  | .reduce5 _ => true
  | .reduce6 _ => true
  | .unpack565 _ => true
  | .mix _ _ w0 w1 => w0 != 0 || w1 != 0
  | .pal4 _ _ => true
  | .palBc1 _ _ => true
  | .idx2 _ => true
  | .idx3 _ => true
  | .alpha4 _ => true
  | .ramp8 _ _ => true

/-- The precondition of BULK_DECODE: "width and height are handled in multiples of 4 texels"
(spec/45_bulk_driver.md R129). -/
def BulkCall.wf (c : BulkCall) : Bool :=
  c.width % Config.tileSide == 0 && c.height % Config.tileSide == 0

end Sys2Proof
end

