-- ==== Sys2Proof/Decode.lean ====
section
/-! DEFINITION. Byte order, field extraction, the opcode table, the decoder of a request and its encoder
(spec/30_encoding.md). The decoder is total on byte lists and rejects by name. -/

namespace Sys2Proof

/-! ## Byte order (spec/20_memory.md R21) -/

/-- `LE(b[0 .. n-1])` (spec/00_scope.md section 5): the byte at the lowest offset is least significant. -/
def leNat : List Byte → Nat
  | [] => 0
  | b :: bs => b.toNat + 256 * leNat bs

/-- The `n` bytes of a number, lowest offset first: the inverse of `leNat`. -/
def bytesLE : Nat → Nat → List Byte
  | 0, _ => []
  | n + 1, v => BitVec.ofNat 8 v :: bytesLE n (v / 256)

/-! ## Block layouts (spec/30_encoding.md R41 to R43) -/

/-- Cut a BC1 block, given as the integer `B = LE(b[0..7])`, into its fields (R41). -/
def Bc1Block.ofBits (B : BitVec 64) : Bc1Block where
  color0       := B.extractLsb' 0 16
  color1       := B.extractLsb' 16 16
  colorIndices := B.extractLsb' 32 32

/-- Cut a BC2 block, given as the integer `B = LE(b[0..15])`, into its fields (R42). -/
def Bc2Block.ofBits (B : BitVec 128) : Bc2Block where
  alphaBits    := B.extractLsb' 0 64
  color0       := B.extractLsb' 64 16
  color1       := B.extractLsb' 80 16
  colorIndices := B.extractLsb' 96 32

/-- Cut a BC3 block, given as the integer `B = LE(b[0..15])`, into its fields (R43). -/
def Bc3Block.ofBits (B : BitVec 128) : Bc3Block where
  alpha0         := B.extractLsb' 0 8
  alpha1         := B.extractLsb' 8 8
  alphaIndexBits := B.extractLsb' 16 48
  color0         := B.extractLsb' 64 16
  color1         := B.extractLsb' 80 16
  colorIndices   := B.extractLsb' 96 32

/-- The integer of a BC1 block with the given fields (R41). -/
def Bc1Block.toBits (b : Bc1Block) : BitVec 64 :=
  b.colorIndices ++ b.color1 ++ b.color0

/-- The integer of a BC2 block with the given fields (R42). -/
def Bc2Block.toBits (b : Bc2Block) : BitVec 128 :=
  b.colorIndices ++ b.color1 ++ b.color0 ++ b.alphaBits

/-- The integer of a BC3 block with the given fields (R43). -/
def Bc3Block.toBits (b : Bc3Block) : BitVec 128 :=
  b.colorIndices ++ b.color1 ++ b.color0 ++ b.alphaIndexBits ++ b.alpha1 ++ b.alpha0

/-! ## The opcode table (spec/30_encoding.md R51) -/

/-- The sixteen operation codes, matched on all 8 bits (R51; never decoded by sub-field). -/
def opTable : List (Byte × Op) :=
  [(0x01, .decBc1), (0x02, .decBc2), (0x03, .decBc3), (0x05, .decBc1a),
   (0x10, .expand5), (0x11, .expand6), (0x12, .reduce5), (0x13, .reduce6), (0x14, .unpack565),
   (0x20, .mix), (0x21, .pal4), (0x22, .palBc1),
   (0x30, .idx2), (0x31, .idx3),
   (0x40, .alpha4), (0x41, .ramp8)]

/-- The operation a code selects; none for a reserved code (R51, R52). -/
def opOf (code : Byte) : Option Op := (opTable.find? (fun row => row.1 == code)).map (·.2)

/-- The code of an operation (R51). -/
def Op.code : Op → Byte
  | .decBc1 => 0x01
  | .decBc2 => 0x02
  | .decBc3 => 0x03
  | .decBc1a => 0x05
  | .expand5 => 0x10
  | .expand6 => 0x11
  | .reduce5 => 0x12
  | .reduce6 => 0x13
  | .unpack565 => 0x14
  | .mix => 0x20
  | .pal4 => 0x21
  | .palBc1 => 0x22
  | .idx2 => 0x30
  | .idx3 => 0x31
  | .alpha4 => 0x40
  | .ramp8 => 0x41

/-! ## Operand fields (spec/30_encoding.md R53) -/

/-- The operand fields each operation reads from `A = LE(arg[0..15])`; every other bit is ignored (R53). -/
def operandFields (A : BitVec 128) : Op → Instr
  | .decBc1 => .decBc1 (Bc1Block.ofBits (A.extractLsb' 0 64))
  | .decBc2 => .decBc2 (Bc2Block.ofBits A)
  | .decBc3 => .decBc3 (Bc3Block.ofBits A)
  | .decBc1a => .decBc1a (Bc1Block.ofBits (A.extractLsb' 0 64))
  | .expand5 => .expand5 (A.extractLsb' 0 5)
  | .expand6 => .expand6 (A.extractLsb' 0 6)
  | .reduce5 => .reduce5 (A.extractLsb' 0 8)
  | .reduce6 => .reduce6 (A.extractLsb' 0 8)
  | .unpack565 => .unpack565 (A.extractLsb' 0 16)
  | .mix => .mix (A.extractLsb' 0 8) (A.extractLsb' 8 8) (A.extractLsb' 16 3) (A.extractLsb' 24 3)
  | .pal4 => .pal4 (A.extractLsb' 0 16) (A.extractLsb' 16 16)
  | .palBc1 => .palBc1 (A.extractLsb' 0 16) (A.extractLsb' 16 16)
  | .idx2 => .idx2 (A.extractLsb' 0 32)
  | .idx3 => .idx3 (A.extractLsb' 0 48)
  | .alpha4 => .alpha4 (A.extractLsb' 0 64)
  | .ramp8 => .ramp8 (A.extractLsb' 0 8) (A.extractLsb' 8 8)

/-! ## The decoder -/

/-- Why a byte list is no legal request. -/
inductive Reject where
  /-- Not 17 bytes long: cannot occur at the request port (U1, spec/30_encoding.md R50). -/
  | badLength (length : Nat)
  /-- A reserved operation code (spec/30_encoding.md R52). -/
  | reservedOp (code : Byte)
deriving DecidableEq, Repr

/-- Decode a request: the whole of `op` selects the operation; for a reserved code `arg` is not
examined (R51, R52). -/
def decodeRequest (r : Request) : Except Reject Instr :=
  match opOf r.op with
  | some o => .ok (operandFields r.arg o)
  | none => .error (.reservedOp r.op)

/-- The request that seventeen bytes spell: byte 0 is `op`, bytes 1 to 16 are `arg` (R50). -/
def Request.ofBytes : List Byte → Request
  | [] => ⟨0, 0⟩
  | op :: arg => ⟨op, BitVec.ofNat 128 (leNat arg)⟩

/-- The seventeen bytes of a request (R50). -/
def Request.bytes (r : Request) : List Byte := r.op :: bytesLE Config.argBytes r.arg.toNat

/-- Decode any byte list: seventeen bytes are a request, any other number is rejected by name. -/
def decode (bytes : List Byte) : Except Reject Instr :=
  if requestWf bytes then decodeRequest (Request.ofBytes bytes) else .error (.badLength bytes.length)

/-! ## The encoder -/

/-- The operand with an instruction's fields in their places and every ignored bit 0 (R53, R60). -/
def operandBits : Instr → BitVec 128
  | .decBc1 b => b.toBits.setWidth 128
  | .decBc2 b => b.toBits
  | .decBc3 b => b.toBits
  | .decBc1a b => b.toBits.setWidth 128
  | .expand5 n => n.setWidth 128
  | .expand6 n => n.setWidth 128
  | .reduce5 n8 => n8.setWidth 128
  | .reduce6 n8 => n8.setWidth 128
  | .unpack565 c => c.setWidth 128
  | .mix v0 v1 w0 w1 => (w1.setWidth 8 ++ w0.setWidth 8 ++ v1 ++ v0).setWidth 128
  | .pal4 c0 c1 => (c1 ++ c0).setWidth 128
  | .palBc1 c0 c1 => (c1 ++ c0).setWidth 128
  | .idx2 ci => ci.setWidth 128
  | .idx3 ai => ai.setWidth 128
  | .alpha4 ab => ab.setWidth 128
  | .ramp8 a0 a1 => (a1 ++ a0).setWidth 128

/-- The request that asks for an instruction. -/
def Instr.request (i : Instr) : Request := ⟨i.op.code, operandBits i⟩

/-- The seventeen bytes of an instruction's request (R50). -/
def encode (i : Instr) : List Byte := i.request.bytes

/-! ## Requests given as one number, for the host -/

/-- The seventeen bytes of a request whose first `nbits` bits are those of `w`, bit 0 the least
significant bit of byte 0, and whose other bits are 0. -/
def tableWordBytes (nbits w : Nat) : List Byte := bytesLE Config.requestBytes (w % 2 ^ nbits)

/-- The instruction the decoder reads from such a request. -/
def decodeTableWord (nbits w : Nat) : Option Instr :=
  match decode (tableWordBytes nbits w) with
  | .ok i => some i
  | .error _ => none

end Sys2Proof
end

