-- ==== Sys2Proof/Machine/State.lean ====
section
/-! DEFINITION. The state as plain data: the request and the response of each decoder instance, the two
buffers of the bulk driver, and the bulk call in progress. The decoder itself keeps nothing between
requests (spec/10_state.md R10, R17): no register, no program counter, no flag, no mode exists. -/

namespace Sys2Proof.Machine

/-- The statuses of spec/60_exceptions.md R142. A request is answered with one of the first two; only a
bulk call can return the third (R140). -/
inductive Status where
  | ok
  | unsupportedFormat
  | truncatedInput
deriving DecidableEq, Repr

/-- A response `(status, res)`; `res` is empty unless the status is `ok` (spec/10_state.md R14, U15). -/
structure Response where
  status : Status
  res    : List Byte
deriving DecidableEq, Repr

/-- What is at one decoder instance: the request it holds, if any, and the response it gave last, if it
has given one (spec/10_state.md R13, R14, R18). -/
structure Port where
  req : Option Request
  rsp : Option Response
deriving DecidableEq, Repr

/-- A byte buffer of `len` bytes, offsets `0 .. len-1` (spec/20_memory.md R20, R28). `cells` lists the
bytes that are not 0, by strictly rising offset. -/
structure Memory where
  len   : Nat
  cells : List Host.Cell
deriving DecidableEq, Repr

/-- Which block decode the driver uses (spec/45_bulk_driver.md R124): BC1 to RGB888, BC1 to RGBA8888,
BC2, BC3. -/
inductive BlockKind where
  | bc1 | bc1a | bc2 | bc3
deriving DecidableEq, Repr

/-- A block of the grid: block row `br`, block column `bc` (spec/45_bulk_driver.md R124). -/
structure BlockPos where
  br : Nat
  bc : Nat
deriving DecidableEq, Repr

/-- How far a bulk call is: nothing done; check 1 passed; both checks passed, with the blocks still to do
in the order they will be visited, which is free (spec/45_bulk_driver.md R122, R124, R128). -/
inductive BulkPhase where
  | start
  | formatChecked (kind : BlockKind)
  | blocks (kind : BlockKind) (todo : List BlockPos)
deriving DecidableEq, Repr

/-- A bulk call in progress; a State holds at most one (DESIGN CHOICE, log 21). -/
structure BulkRun where
  call  : BulkCall
  phase : BulkPhase
deriving DecidableEq, Repr

/-- The whole machine. `port` is the instance whose turn it is and `others` the other instances, so that
`NUM_INSTANCES = 1 + others.length ≥ 1` (spec/10_state.md R19, spec/60_exceptions.md R150); `cbuf` and
`obuf` are CBUF and OBUF (spec/20_memory.md R20); `bulk` is the bulk call in progress and `bulkStatus`
what the last finished one returned (spec/45_bulk_driver.md R121). -/
structure State where
  port       : Port
  others     : List Port
  cbuf       : Memory
  obuf       : Memory
  bulk       : Option BulkRun
  bulkStatus : Option Status
deriving DecidableEq, Repr

/-- Why the machine stops with a fault. No request raises one: the two errors of spec/60_exceptions.md
R140 are responses. -/
inductive Fault where
  /-- Raised by a block step of the bulk driver that would read outside CBUF (spec/20_memory.md R26 says
  it never does; no state meeting the invariant of Safety.lean reaches it). Safe. -/
  | cbufRead (offset n : Nat)
  /-- Raised by a block step of the bulk driver that would write outside OBUF for a block (spec/20_memory.md
  R27 says it never does; no state meeting the invariant reaches it). Safe. -/
  | obufWrite (br bc : Nat)
deriving DecidableEq, Repr

/-- Why the model gives no meaning. -/
inductive Refusal where
  /-- An instruction that has no meaning yet; raised by no arm now. Safe. -/
  | notModelled (mnemonic : String)
  /-- A bulk call whose width or height is not a multiple of 4: "a model refuses it"
  (spec/45_bulk_driver.md R129, U2). Safe. -/
  | bulkSize (width height : Nat)
deriving DecidableEq, Repr

/-- An instance with no request and no response: "idle" (spec/10_state.md R18). -/
def Port.idle : Port := ⟨none, none⟩

/-- The machine right after reset (spec/10_state.md R18, spec/70_reset_and_hazards.md R160): idle, no
response owed. DESIGN CHOICE (log 4, 10, 13): one instance, empty host buffers, no bulk call. -/
def State.reset : State where
  port       := Port.idle
  others     := []
  cbuf       := ⟨0, []⟩
  obuf       := ⟨0, []⟩
  bulk       := none
  bulkStatus := none

end Sys2Proof.Machine
end

