-- ==== Sys2Proof/Machine/Ops.lean ====
section
/-! DEFINITION. The named operations on the state: answering a request, raising an error, ending a bulk
call, the host's moves, passing the turn, and the reads and writes of the two buffers. -/

namespace Sys2Proof.Machine

/-- The result of a step. -/
abbrev StepOutcome := Host.Outcome State Fault Refusal

/-! ## Requests and responses -/

/-- The numeric status codes, where a status is serialised (spec/60_exceptions.md R142). -/
def Status.code : Status → Nat
  | .ok => 0
  | .unsupportedFormat => 1
  | .truncatedInput => 2

/-- End the current request with a response: the request is gone and "there is nothing else to update"
(spec/10_state.md R14). -/
def State.respond (s : State) (rsp : Response) : State := { s with port := ⟨none, some rsp⟩ }

/-- Answer the current request with status `OK` and these result bytes (spec/10_state.md R14). -/
def State.answer (s : State) (res : List Byte) : State := s.respond ⟨.ok, res⟩

/-- `raise E()` of spec/60_exceptions.md R141, the only exception entry of this hardware: the request
ends with status `e` and no result; nothing is saved and nothing else changes. -/
def State.raise (s : State) (e : Status) : State := s.respond ⟨e, []⟩

/-- A bulk call returns with a status (spec/45_bulk_driver.md R121); for an error this is R141's
`raise E()` for a bulk call: the buffers are as they were (R127). -/
def State.returnBulk (s : State) (e : Status) : State := { s with bulk := none, bulkStatus := some e }

/-- What the machine answers to a request whose code is reserved: `UnsupportedFormat`, no result
(spec/30_encoding.md R52). A rejected length cannot occur at the port (U1). -/
def answerReject (_why : Reject) (s : State) : StepOutcome := .next (s.raise .unsupportedFormat)

/-! ## Instances (spec/10_state.md R19, spec/60_exceptions.md R150) -/

/-- NUM_INSTANCES of spec/00_scope.md section 4. -/
def State.numInstances (s : State) : Nat := 1 + s.others.length

/-- All instances, the one whose turn it is first. -/
def State.ports (s : State) : List Port := s.port :: s.others

/-- Pass the turn to the next instance, round robin (DESIGN CHOICE, log 3); with one instance nothing
changes. -/
def State.passTurn (s : State) : State :=
  match s.others with
  | [] => s
  | p :: ps => { s with port := p, others := ps ++ [s.port] }

/-- Pass the turn after a move that went well. -/
def thenPassTurn : StepOutcome → StepOutcome
  | .next s => .next s.passTurn
  | .fault f => .fault f
  | .refused r => .refused r

/-! ## The host's moves -/

/-- The host presents a request at the instance whose turn it is. DESIGN CHOICE (log 22): a request that is still
pending there is replaced and gets no response. -/
def State.placeRequest (s : State) (r : Request) : State := { s with port := { s.port with req := some r } }

/-- The host issues a bulk call over the buffers in the state (spec/45_bulk_driver.md R121). DESIGN CHOICE (log 21):
the spec gives no result for a call issued while another is in progress (spec/20_memory.md R35 makes OBUF one call's
alone); here the new call replaces the running one, which never returns a status. -/
def State.placeBulk (s : State) (c : BulkCall) : State := { s with bulk := some ⟨c, .start⟩ }

/-- Reset of the decoder instances: every one is idle, "that request gets no response, and nothing of it
remains"; the buffers and the driver are the host's (spec/70_reset_and_hazards.md R160, log 20). -/
def State.resetDecoder (s : State) : State :=
  { s with port := Port.idle, others := s.others.map (fun _ => Port.idle) }

/-- A request whose first `nbits` bits are those of `w` and whose other bits are 0. -/
def tableRequest (nbits w : Nat) : Request := Request.ofBytes (tableWordBytes nbits w)

/-! ## Buffers (spec/20_memory.md R20, R26, R27) -/

/-- What an offset inside a buffer reads as when no cell lists it (DESIGN CHOICE, log 8). -/
def unlistedByte : Byte := 0

/-- The byte at an offset of a cell list. -/
def cellsGet : List Host.Cell → Nat → Byte
  | [], _ => unlistedByte
  | (b, w) :: cs, a => if a = b then w else cellsGet cs a

/-- Put a byte at an offset of a rising cell list, keeping the canonical form. -/
def cellsPut : List Host.Cell → Nat → Byte → List Host.Cell
  | [], a, v => if v = unlistedByte then [] else [(a, v)]
  | (b, w) :: cs, a, v =>
    if a < b then (if v = unlistedByte then (b, w) :: cs else (a, v) :: (b, w) :: cs)
    else if a = b then (if v = unlistedByte then cs else (a, v) :: cs)
    else (b, w) :: cellsPut cs a v

/-- The canonical form: offsets strictly rising and inside the buffer, no cell holding what an unlisted
offset reads as. -/
def Memory.wf (m : Memory) : Bool :=
  decide (m.cells.Pairwise (fun c d => c.1 < d.1)) &&
    m.cells.all (fun c => c.2 != unlistedByte && decide (c.1 < m.len))

/-- Read one byte; an offset at or above the length does not exist (R20). -/
def Memory.read (m : Memory) (a : Nat) : Option Byte :=
  if a < m.len then some (cellsGet m.cells a) else none

/-- Write one byte; an offset at or above the length does not exist (R20). -/
def Memory.write (m : Memory) (a : Nat) (v : Byte) : Option Memory :=
  if a < m.len then some { m with cells := cellsPut m.cells a v } else none

/-- `MemRead(addr, n)`: the bytes at `addr .. addr+n-1`, lowest first (R26). -/
def Memory.readBytes (m : Memory) (addr : Nat) : Nat → Option (List Byte)
  | 0 => some []
  | n + 1 =>
    match m.read addr, m.readBytes (addr + 1) n with
    | some v, some vs => some (v :: vs)
    | _, _ => none

/-- `MemWrite(addr, n, v)`: byte `j` of `v` goes to `addr + j` (R27). -/
def Memory.writeBytes (m : Memory) (addr : Nat) : List Byte → Option Memory
  | [] => some m
  | v :: vs =>
    match m.write addr v with
    | some m' => m'.writeBytes (addr + 1) vs
    | none => none

/-- The buffer with its length set to `n`: the bytes below `n` stay, offsets it did not have before read
as `unlistedByte` (spec/45_bulk_driver.md R123, D20, log 7). -/
def Memory.resize (m : Memory) (n : Nat) : Memory := ⟨n, m.cells.filter (fun c => decide (c.1 < n))⟩

end Sys2Proof.Machine
end

