-- ==== Sys2Proof/Machine/Operands.lean ====
section
/-! DEFINITION. The packed fields inside operands, table lookup, pixels and the byte layout of results
(spec/30_encoding.md R44 to R48 and R54 to R58). -/

namespace Sys2Proof.Machine

/-! ## Packed fields -/

/-- Red of a PackedColor16, `c[15:11]` (R44). -/
def red5 (c : PackedColor16) : BitVec 5 := c.extractLsb' 11 5

/-- Green of a PackedColor16, `c[10:5]` (R44). -/
def green6 (c : PackedColor16) : BitVec 6 := c.extractLsb' 5 6

/-- Blue of a PackedColor16, `c[4:0]` (R44). -/
def blue5 (c : PackedColor16) : BitVec 5 := c.extractLsb' 0 5

/-- Colour index of a texel, `ci[2i+1 : 2i]` (R45). -/
def colorIndex (ci : BitVec 32) (i : Fin 16) : BitVec 2 := ci.extractLsb' (2 * i.val) 2

/-- Explicit alpha of a texel, `ab[4i+3 : 4i]` (R46). -/
def alphaNibble (ab : BitVec 64) (i : Fin 16) : BitVec 4 := ab.extractLsb' (4 * i.val) 4

/-- Alpha index of a texel, `ai[3i+2 : 3i]` of the full 48-bit value (R48). -/
def alphaIndex (ai : BitVec 48) (i : Fin 16) : BitVec 3 := ai.extractLsb' (3 * i.val) 3

/-- Entry of a table a `w`-bit index selects. The table has `2^w` entries, so no index is out of range
and no check is needed (spec/42_index_unpack.md R94). -/
def lookup {α : Type} {w : Nat} (table : Vector α (2 ^ w)) (index : BitVec w) : α := table.get index.toFin

/-- Texel linear index of column `x`, row `y`: `i = y*4 + x` (R47). -/
def texelIndex (x y : Fin 4) : Fin 16 := ⟨y.val * 4 + x.val, by omega⟩

/-! ## Pixels and results -/

/-- An RGB888 pixel (spec/00_scope.md glossary). -/
structure Rgb where
  r : Byte
  g : Byte
  b : Byte
deriving DecidableEq, Repr

/-- An RGBA8888 pixel or colour-table entry (spec/41_palette.md R88). -/
structure Rgba where
  r : Byte
  g : Byte
  b : Byte
  a : Byte
deriving DecidableEq, Repr

/-- An RGB triple with an alpha. -/
def Rgb.withAlpha (p : Rgb) (a : Byte) : Rgba := ⟨p.r, p.g, p.b, a⟩

/-- The `.rgb` of an entry. -/
def Rgba.rgb (p : Rgba) : Rgb := ⟨p.r, p.g, p.b⟩

/-- The three bytes of an RGB888 value, red first (R58). -/
def Rgb.bytes (p : Rgb) : List Byte := [p.r, p.g, p.b]

/-- The four bytes of an RGBA8888 value, red first (R58). -/
def Rgba.bytes (p : Rgba) : List Byte := [p.r, p.g, p.b, p.a]

/-- Sixteen values serialised in ascending texel index (R54, R57). -/
def laneBytes {α : Type} (ser : α → List Byte) (f : Lanes α) : List Byte := (List.ofFn f).flatMap ser

/-- A table serialised entry by entry (R56). -/
def tableBytes {α : Type} {n : Nat} (ser : α → List Byte) (t : Vector α n) : List Byte :=
  t.toList.flatMap ser

/-- A value of one byte or less, zero-extended to a byte (R55, R57). -/
def zextByte {w : Nat} (v : BitVec w) : List Byte := [v.setWidth 8]

end Sys2Proof.Machine
end

