-- ==== Sys2Proof/Machine/Flags.lean ====
section
/-! DEFINITION. The hardware has no status flags and no condition codes (spec/10_state.md R15). Its two
comparisons are used inside one request and stored nowhere; they are written here once
(spec/46_common_laws.md R172). -/

namespace Sys2Proof.Machine

/-- `c0_raw > c1_raw` on the raw 16-bit values, unsigned and strict (spec/41_palette.md R86). -/
def colorGreater (c0 c1 : PackedColor16) : Bool := decide (c0.toNat > c1.toNat)

/-- `a0 > a1` on the two 8-bit values, unsigned and strict (spec/43_alpha.md R101). -/
def alphaGreater (a0 a1 : Byte) : Bool := decide (a0.toNat > a1.toNat)

/-- The weights of a MIX request sum to zero (spec/41_palette.md R82). -/
def weightsZero (w0 w1 : BitVec 3) : Bool := w0.toNat + w1.toNat == 0

end Sys2Proof.Machine
end

