-- ==== Sys2Proof/Machine/DepthConvert.lean ====
section
/-! DEFINITION. The channel depth converter and the RGB565 unpacker (spec/40_depth_convert.md):
EXPAND5, EXPAND6, REDUCE5, REDUCE6, UNPACK565. -/

namespace Sys2Proof.Machine

/-- `expand(n, srcBits) = (n*2*255 + M) / (2*M)`, `M = 2^srcBits - 1` (R70). -/
def expand (srcBits n : Nat) : Nat := (n * 2 * 255 + (2 ^ srcBits - 1)) / (2 * (2 ^ srcBits - 1))

/-- `expand(n, 5)` as a byte (R70). -/
def expand5 (n : BitVec 5) : Byte := BitVec.ofNat 8 (expand 5 n.toNat)

/-- `expand(n, 6)` as a byte (R70). -/
def expand6 (n : BitVec 6) : Byte := BitVec.ofNat 8 (expand 6 n.toNat)

/-- `reduce(n8, dstBits) = (n8*2*M + 255) / (2*255)`, `M = 2^dstBits - 1` (R73). -/
def reduce (dstBits n8 : Nat) : Nat := (n8 * 2 * (2 ^ dstBits - 1) + 255) / (2 * 255)

/-- `reduce(n8, 5)` (R73). -/
def reduce5 (n8 : Byte) : BitVec 5 := BitVec.ofNat 5 (reduce 5 n8.toNat)

/-- `reduce(n8, 6)` (R73). -/
def reduce6 (n8 : Byte) : BitVec 6 := BitVec.ofNat 6 (reduce 6 n8.toNat)

/-- `unpack565(c)`: the three fields, each expanded to 8 bits (R76). -/
def unpack565 (c : PackedColor16) : Rgb := ⟨expand5 (red5 c), expand6 (green6 c), expand5 (blue5 c)⟩

/-- EXPAND5 (R71). -/
def execExpand5 (n : BitVec 5) (s : State) : StepOutcome := .next (s.answer [expand5 n])

/-- EXPAND6 (R72). -/
def execExpand6 (n : BitVec 6) (s : State) : StepOutcome := .next (s.answer [expand6 n])

/-- REDUCE5 (R74). -/
def execReduce5 (n8 : Byte) (s : State) : StepOutcome := .next (s.answer (zextByte (reduce5 n8)))

/-- REDUCE6 (R75). -/
def execReduce6 (n8 : Byte) (s : State) : StepOutcome := .next (s.answer (zextByte (reduce6 n8)))

/-- UNPACK565 (R76). -/
def execUnpack565 (c : PackedColor16) (s : State) : StepOutcome := .next (s.answer (unpack565 c).bytes)

end Sys2Proof.Machine
end

