-- ==== Sys2Proof/Machine/Palette.lean ====
section
/-! DEFINITION. The weighted mix and the colour table (spec/41_palette.md): MIX, PAL4, PALBC1. -/

namespace Sys2Proof.Machine

/-- `mix(w0, v0, w1, v1) = (w0*v0 + w1*v1) / (w0 + w1)`, the whole sum divided, truncating, for
`w0 + w1 > 0` (R80). -/
def mix (w0 : Nat) (v0 : Byte) (w1 : Nat) (v1 : Byte) : Byte :=
  BitVec.ofNat 8 ((w0 * v0.toNat + w1 * v1.toNat) / (w0 + w1))

/-- `mix3`: each channel of two unpacked colours mixed independently (R81). -/
def mix3 (w0 : Nat) (p0 : Rgb) (w1 : Nat) (p1 : Rgb) : Rgb :=
  ⟨mix w0 p0.r w1 p1.r, mix w0 p0.g w1 p1.g, mix w0 p0.b w1 p1.b⟩

/-- A ColorTable: exactly 4 entries, looked up by a 2-bit index (R88). -/
abbrev ColorTable := Vector Rgba (2 ^ 2)

/-- `pal4(c0, c1)`, the 4-distinct-color table (R83). -/
def pal4 (c0 c1 : PackedColor16) : ColorTable :=
  let p0 := unpack565 c0
  let p1 := unpack565 c1
  #v[p0.withAlpha 255, p1.withAlpha 255,
     (mix3 2 p0 1 p1).withAlpha 255, (mix3 1 p0 2 p1).withAlpha 255]

/-- `pal3(c0, c1)`, the 3-color table with the transparent or black entry 3 (R85). -/
def pal3 (c0 c1 : PackedColor16) : ColorTable :=
  let p0 := unpack565 c0
  let p1 := unpack565 c1
  #v[p0.withAlpha 255, p1.withAlpha 255, (mix3 1 p0 1 p1).withAlpha 255, ⟨0, 0, 0, 0⟩]

/-- `palbc1(c0, c1)`: chosen by the raw comparison; equality takes the 3-color table (R86). -/
def palBc1 (c0 c1 : PackedColor16) : ColorTable := if colorGreater c0 c1 then pal4 c0 c1 else pal3 c0 c1

/-- MIX: `UnsupportedFormat` when both weights are zero, else the mix (R82). -/
def execMix (v0 v1 : Byte) (w0 w1 : BitVec 3) (s : State) : StepOutcome :=
  if weightsZero w0 w1 then .next (s.raise .unsupportedFormat)
  else .next (s.answer [mix w0.toNat v0 w1.toNat v1])

/-- PAL4 (R84). -/
def execPal4 (color0 color1 : PackedColor16) (s : State) : StepOutcome :=
  .next (s.answer (tableBytes Rgba.bytes (pal4 color0 color1)))

/-- PALBC1 (R87). -/
def execPalBc1 (color0 color1 : PackedColor16) (s : State) : StepOutcome :=
  .next (s.answer (tableBytes Rgba.bytes (palBc1 color0 color1)))

end Sys2Proof.Machine
end

