-- ==== Sys2Proof/Machine/IndexUnpack.lean ====
section
/-! DEFINITION. The index unpackers (spec/42_index_unpack.md): IDX2, IDX3. -/

namespace Sys2Proof.Machine

/-- `idx2(ci)`, sixteen 2-bit values (R90). -/
def idx2 (ci : BitVec 32) : Lanes (BitVec 2) := fun i => colorIndex ci i

/-- `idx3(ai)`, sixteen 3-bit values (R92). -/
def idx3 (ai : BitVec 48) : Lanes (BitVec 3) := fun i => alphaIndex ai i

/-- IDX2 (R91). -/
def execIdx2 (ci : BitVec 32) (s : State) : StepOutcome := .next (s.answer (laneBytes zextByte (idx2 ci)))

/-- IDX3 (R93). -/
def execIdx3 (ai : BitVec 48) (s : State) : StepOutcome := .next (s.answer (laneBytes zextByte (idx3 ai)))

end Sys2Proof.Machine
end

