-- ==== Sys2Proof/Machine/Alpha.lean ====
section
/-! DEFINITION. The alpha units (spec/43_alpha.md): ALPHA4, RAMP8. -/

namespace Sys2Proof.Machine

/-- `alpha4(ab)[i] = (v4 * 255) / 15`, multiply first, then truncating division (R100). -/
def alpha4 (ab : BitVec 64) : Lanes Byte := fun i => BitVec.ofNat 8 ((alphaNibble ab i).toNat * 255 / 15)

/-- An AlphaTable: exactly 8 entries, looked up by a 3-bit index (spec/00_scope.md glossary). -/
abbrev AlphaTable := Vector Byte (2 ^ 3)

/-- The 6-step ramp (R101, first branch). -/
def ramp6Step (a0 a1 : Byte) : AlphaTable :=
  #v[a0, a1, mix 6 a0 1 a1, mix 5 a0 2 a1, mix 4 a0 3 a1, mix 3 a0 4 a1, mix 2 a0 5 a1, mix 1 a0 6 a1]

/-- The 4-step ramp with the two constants (R101, second branch). -/
def ramp4Step (a0 a1 : Byte) : AlphaTable :=
  #v[a0, a1, mix 4 a0 1 a1, mix 3 a0 2 a1, mix 2 a0 3 a1, mix 1 a0 4 a1, 0, 255]

/-- `ramp8(a0, a1)`; equality takes the 4-step ramp (R101). -/
def ramp8 (a0 a1 : Byte) : AlphaTable := if alphaGreater a0 a1 then ramp6Step a0 a1 else ramp4Step a0 a1

/-- ALPHA4 (R102). -/
def execAlpha4 (ab : BitVec 64) (s : State) : StepOutcome := .next (s.answer (laneBytes zextByte (alpha4 ab)))

/-- RAMP8 (R103). -/
def execRamp8 (a0 a1 : Byte) (s : State) : StepOutcome :=
  .next (s.answer (tableBytes zextByte (ramp8 a0 a1)))

end Sys2Proof.Machine
end

