-- ==== Sys2Proof/Machine/BlockDecode.lean ====
section
/-! DEFINITION. The block decoders (spec/44_block_decode.md): DEC_BC1A, DEC_BC1, DEC_BC2, DEC_BC3. Tables
are built before any lookup by construction (R110, spec/70_reset_and_hazards.md R163). -/

namespace Sys2Proof.Machine

/-- `dec_bc1a(block)`: the BC1 tile with alpha (R111). -/
def decBc1a (block : Bc1Block) : Lanes Rgba :=
  let table := palBc1 block.color0 block.color1
  let ix := idx2 block.colorIndices
  fun i => lookup table (ix i)

/-- The BC1 tile without alpha: the fourth value of each pixel is dropped (R112). -/
def decBc1 (block : Bc1Block) : Lanes Rgb := fun i => (decBc1a block i).rgb

/-- `dec_bc2(block)`: always the 4-distinct-color table, alpha from `alphaBits` (R113). -/
def decBc2 (block : Bc2Block) : Lanes Rgba :=
  let table := pal4 block.color0 block.color1
  let ix := idx2 block.colorIndices
  let al := alpha4 block.alphaBits
  fun i => (lookup table (ix i)).rgb.withAlpha (al i)

/-- `dec_bc3(block)`: always the 4-distinct-color table, alpha from the ramp (R114). -/
def decBc3 (block : Bc3Block) : Lanes Rgba :=
  let table := pal4 block.color0 block.color1
  let ix := idx2 block.colorIndices
  let ramp := ramp8 block.alpha0 block.alpha1
  let ax := idx3 block.alphaIndexBits
  fun i => (lookup table (ix i)).rgb.withAlpha (lookup ramp (ax i))

/-- DEC_BC1A (R111, R54). -/
def execDecBc1a (block : Bc1Block) (s : State) : StepOutcome :=
  .next (s.answer (laneBytes Rgba.bytes (decBc1a block)))

/-- DEC_BC1 (R112, R54). -/
def execDecBc1 (block : Bc1Block) (s : State) : StepOutcome :=
  .next (s.answer (laneBytes Rgb.bytes (decBc1 block)))

/-- DEC_BC2 (R113, R54). -/
def execDecBc2 (block : Bc2Block) (s : State) : StepOutcome :=
  .next (s.answer (laneBytes Rgba.bytes (decBc2 block)))

/-- DEC_BC3 (R114, R54). -/
def execDecBc3 (block : Bc3Block) (s : State) : StepOutcome :=
  .next (s.answer (laneBytes Rgba.bytes (decBc3 block)))

end Sys2Proof.Machine
end

