-- ==== Sys2Proof/Machine/Bulk.lean ====
section
/-! DEFINITION. The bulk image decode driver, BULK_DECODE (spec/45_bulk_driver.md), a host-side procedure
and no request. One move is check 1, check 2, or one block (spec/70_reset_and_hazards.md R165). -/

namespace Sys2Proof.Machine

/-! ## Derived quantities (R123) -/

/-- The block decode a call uses, by `fmt` and, for BC1 only, `alpha`; none for an unsupported format
(R121, R122 check 1, R124). -/
def kindOf (c : BulkCall) : Option BlockKind :=
  match c.fmt with
  | 1 => some (if c.alpha then .bc1a else .bc1)
  | 2 => some .bc2
  | 3 => some .bc3
  | _ => none

/-- Block size in bytes (spec/30_encoding.md R40). -/
def blockByteSize : BlockKind → Nat
  | .bc1 => 8
  | .bc1a => 8
  | .bc2 => 16
  | .bc3 => 16

/-- Bytes of an output pixel: RGB888 or RGBA8888. -/
def bytesPerPixel : BlockKind → Nat
  | .bc1 => 3
  | .bc1a => 4
  | .bc2 => 4
  | .bc3 => 4

/-- `width / 4`. -/
def blocksPerRow (c : BulkCall) : Nat := c.width / 4

/-- `height / 4`. -/
def blockRows (c : BulkCall) : Nat := c.height / 4

/-- Bytes of compressed data the declared size needs. -/
def requiredBytes (k : BlockKind) (c : BulkCall) : Nat := blocksPerRow c * blockRows c * blockByteSize k

/-- Bytes of one image row in the output. -/
def stride (k : BlockKind) (c : BulkCall) : Nat := c.width * bytesPerPixel k

/-- `len(OBUF)`. -/
def outputBytes (k : BlockKind) (c : BulkCall) : Nat := c.height * stride k c

/-- Every block of the grid, row-major: the reference order (R124, R128). -/
def blockGrid (c : BulkCall) : List BlockPos :=
  (List.range (blockRows c)).flatMap fun br => (List.range (blocksPerRow c)).map fun bc => ⟨br, bc⟩

/-! ## One block (R124, R125) -/

/-- Offset of a block in CBUF (R124). -/
def blockOffset (k : BlockKind) (c : BulkCall) (p : BlockPos) : Nat :=
  (p.br * blocksPerRow c + p.bc) * blockByteSize k

/-- The sixteen pixels of a block, each as its bytes in the output buffer (R124, spec/30_encoding.md R58). -/
def blockTexels (k : BlockKind) (block : List Byte) : Lanes (List Byte) :=
  match k with
  | .bc1 => fun i => (decBc1 (Bc1Block.ofBits (BitVec.ofNat 64 (leNat block))) i).bytes
  | .bc1a => fun i => (decBc1a (Bc1Block.ofBits (BitVec.ofNat 64 (leNat block))) i).bytes
  | .bc2 => fun i => (decBc2 (Bc2Block.ofBits (BitVec.ofNat 128 (leNat block))) i).bytes
  | .bc3 => fun i => (decBc3 (Bc3Block.ofBits (BitVec.ofNat 128 (leNat block))) i).bytes

/-- Offset in OBUF of texel `i` of a block: pixel `(bc*4 + x, br*4 + y)`, `x = i mod 4`, `y = i / 4`
(R125, spec/30_encoding.md R47). -/
def texelOffset (k : BlockKind) (c : BulkCall) (p : BlockPos) (i : Fin 16) : Nat :=
  ((p.br * 4 + i.val / 4) * c.width + (p.bc * 4 + i.val % 4)) * bytesPerPixel k

/-- Write a tile into OBUF, texel by texel (R125); none if a byte would lie outside the buffer. -/
def writeTile (k : BlockKind) (c : BulkCall) (p : BlockPos) (texels : Lanes (List Byte)) (m : Memory) :
    Option Memory :=
  (List.finRange 16).foldlM (fun m i => m.writeBytes (texelOffset k c p i) (texels i)) m

/-! ## The moves of the driver -/

/-- The block grid is done (return `OK`) or there are blocks left. -/
def State.continueBulk (s : State) (c : BulkCall) (k : BlockKind) (todo : List BlockPos) : State :=
  if todo.isEmpty then s.returnBulk .ok else { s with bulk := some ⟨c, .blocks k todo⟩ }

/-- First move: a size that is not a multiple of 4 has no meaning (R129); then check 1 (R122). -/
def bulkCheckFormat (c : BulkCall) (s : State) : StepOutcome :=
  if c.wf then
    match kindOf c with
    | some k => .next { s with bulk := some ⟨c, .formatChecked k⟩ }
    | none => .next (s.returnBulk .unsupportedFormat)
  else .refused (.bulkSize c.width c.height)

/-- Second move: check 2 (R122); when it passes, OBUF is the region of `outputBytes` bytes designated for
the call (R123, D20, log 7) and all blocks are still to do; an image of no blocks is done (R131). -/
def bulkCheckLength (c : BulkCall) (k : BlockKind) (s : State) : StepOutcome :=
  if s.cbuf.len < requiredBytes k c then .next (s.returnBulk .truncatedInput)
  else .next ({ s with obuf := s.obuf.resize (outputBytes k c) }.continueBulk c k (blockGrid c))

/-- Any later move: read, decode and write the next block (R124, R125). -/
def bulkBlock (c : BulkCall) (k : BlockKind) (todo : List BlockPos) (s : State) : StepOutcome :=
  match todo with
  | [] => .next (s.returnBulk .ok)
  | p :: rest =>
    match s.cbuf.readBytes (blockOffset k c p) (blockByteSize k) with
    | none => .fault (.cbufRead (blockOffset k c p) (blockByteSize k))
    | some block =>
      match writeTile k c p (blockTexels k block) s.obuf with
      | none => .fault (.obufWrite p.br p.bc)
      | some m => .next ({ s with obuf := m }.continueBulk c k rest)

/-- The next move of a bulk call. -/
def bulkMove (run : BulkRun) (s : State) : StepOutcome :=
  match run.phase with
  | .start => bulkCheckFormat run.call s
  | .formatChecked k => bulkCheckLength run.call k s
  | .blocks k todo => bulkBlock run.call k todo s

end Sys2Proof.Machine
end

