-- ==== Sys2Proof/Machine/Dispatch.lean ====
section
/-! DEFINITION. One arm per operation of spec/opcode_table.json. -/

namespace Sys2Proof.Machine

def exec (i : Instr) (s : State) : Host.Outcome State Fault Refusal :=
  match i with
  | .decBc1 block => Sys2Proof.Machine.execDecBc1 block s
  | .decBc2 block => Sys2Proof.Machine.execDecBc2 block s
  | .decBc3 block => Sys2Proof.Machine.execDecBc3 block s
  | .decBc1a block => Sys2Proof.Machine.execDecBc1a block s
  | .expand5 n => Sys2Proof.Machine.execExpand5 n s
  | .expand6 n => Sys2Proof.Machine.execExpand6 n s
  | .reduce5 n8 => Sys2Proof.Machine.execReduce5 n8 s
  | .reduce6 n8 => Sys2Proof.Machine.execReduce6 n8 s
  | .unpack565 c => Sys2Proof.Machine.execUnpack565 c s
  | .mix v0 v1 w0 w1 => Sys2Proof.Machine.execMix v0 v1 w0 w1 s
  | .pal4 color0 color1 => Sys2Proof.Machine.execPal4 color0 color1 s
  | .palBc1 color0 color1 => Sys2Proof.Machine.execPalBc1 color0 color1 s
  | .idx2 ci => Sys2Proof.Machine.execIdx2 ci s
  | .idx3 ai => Sys2Proof.Machine.execIdx3 ai s
  | .alpha4 ab => Sys2Proof.Machine.execAlpha4 ab s
  | .ramp8 a0 a1 => Sys2Proof.Machine.execRamp8 a0 a1 s

end Sys2Proof.Machine
end

