-- ==== Sys2Proof/Machine/Step.lean ====
section
/-! DEFINITION. One step of the machine: a request pending at the instance whose turn it is is decoded,
executed and answered in one atomic step (spec/10_state.md R13, R14); with none pending the bulk driver
makes its next move; with no bulk call either, the machine waits (spec/60_exceptions.md R151). Then the
turn passes to the next instance. -/

namespace Sys2Proof.Machine

/-- Answer a request: its operation's meaning, or the answer to a reserved code (spec/30_encoding.md R52). -/
def serve (r : Request) (s : State) : StepOutcome :=
  match decodeRequest r with
  | .ok i => exec i s
  | .error why => answerReject why s

/-- The move of the step, before the turn passes (order of request and driver: DESIGN CHOICE, log 5). -/
def move (s : State) : StepOutcome :=
  match s.port.req with
  | some r => serve r s
  | none =>
    match s.bulk with
    | some run => bulkMove run s
    | none => .next s

/-- One step. -/
def step (s : State) : Host.Outcome State Fault Refusal := thenPassTurn (move s)

/-- The state with the request of a table word presented at the port, where the next step takes it. -/
def State.withFetchWord (s : State) (nbits w : Nat) : State := s.placeRequest (tableRequest nbits w)

end Sys2Proof.Machine
end

