-- ==== Sys2Proof/Safety.lean ====
section
/-! DEFINITION. The invariant of the machine, and what counts as a safe outcome. -/

namespace Sys2Proof.Machine

/-- A response of the request port: `OK` with 1, 3, 8, 16, 48 or 64 result bytes (spec/30_encoding.md R51,
R54 to R57), or `UnsupportedFormat` with none; never `TruncatedInput` (spec/10_state.md R14,
spec/60_exceptions.md R140, R141). -/
def Response.wf (r : Response) : Bool :=
  match r.status with
  | .ok => [1, 3, 8, 16, 48, 64].contains r.res.length
  | .unsupportedFormat => r.res.isEmpty
  | .truncatedInput => false

/-- An instance's last response, if it gave one, is a response of the request port. -/
def Port.wf (p : Port) : Bool :=
  match p.rsp with
  | some r => r.wf
  | none => true

/-- A block position lies in the grid of a call (spec/45_bulk_driver.md R124). -/
def BlockPos.inGrid (c : BulkCall) (p : BlockPos) : Bool :=
  decide (p.br < blockRows c) && decide (p.bc < blocksPerRow c)

/-- A bulk call in progress agrees with the checks it has passed and with the buffers of the state
(spec/45_bulk_driver.md R122 to R124, R129). -/
def BulkRun.wf (s : State) (run : BulkRun) : Bool :=
  match run.phase with
  | .start => true
  | .formatChecked k => run.call.wf && (kindOf run.call == some k)
  | .blocks k todo =>
    run.call.wf && (kindOf run.call == some k) && decide (requiredBytes k run.call ≤ s.cbuf.len) &&
      decide (s.obuf.len = outputBytes k run.call) && todo.all (BlockPos.inGrid run.call)

/-- The invariant: both buffers in canonical form, every instance's response one the port can give, and
the bulk call in progress consistent. Every step keeps it. -/
def State.inv (s : State) : Bool :=
  s.cbuf.wf && s.obuf.wf && s.ports.all Port.wf &&
    (match s.bulk with
     | some run => run.wf s
     | none => true)

/-- No instance holds a request. -/
def State.allIdle (s : State) : Bool := s.ports.all fun p => p.req.isNone

/-- `n` steps one after the other, stopping at the first that answers no next state. -/
def steps : Nat → State → StepOutcome
  | 0, s => .next s
  | n + 1, s =>
    match step s with
    | .next t => steps n t
    | .fault f => .fault f
    | .refused r => .refused r

/-- A safe outcome: a next state, or the refusal of a bulk call of a size that has no meaning
(spec/45_bulk_driver.md R129). No fault is safe. -/
def safeOutcome : StepOutcome → Bool
  | .next _ => true
  | .fault _ => false
  | .refused r =>
    match r with
    | .bulkSize _ _ => true
    | _ => false

end Sys2Proof.Machine
end

