-- ==== Sys2Proof/Certificates/Slice0/Obligations.lean ====
section
/-! DEFINITION. The statements for the provers. Each docstring names the rule of the spec it formalises. -/

namespace Sys2Proof.Claims

open Sys2Proof.Machine

/-- The state after a request of `s` is answered: `rsp` is the response, the request is gone and nothing
else differs. -/
def answered (s : State) (rsp : Response) : State := { s with port := { req := none, rsp := some rsp } }

/-- The result length of an operation, the last column of spec/30_encoding.md R51. -/
def resultLength : Op → Nat
  | .decBc1 => 48
  | .decBc2 => 64
  | .decBc3 => 64
  | .decBc1a => 64
  | .expand5 => 1
  | .expand6 => 1
  | .reduce5 => 1
  | .reduce6 => 1
  | .unpack565 => 3
  | .mix => 1
  | .pal4 => 16
  | .palBc1 => 16
  | .idx2 => 16
  | .idx3 => 16
  | .alpha4 => 16
  | .ramp8 => 8

/-- The bits of `A = LE(arg[0..15])` an operation reads, spec/30_encoding.md R53. -/
def readMask : Op → BitVec 128
  | .decBc1 => 0xFFFFFFFFFFFFFFFF
  | .decBc2 => 0xFFFFFFFFFFFFFFFFFFFFFFFFFFFFFFFF
  | .decBc3 => 0xFFFFFFFFFFFFFFFFFFFFFFFFFFFFFFFF
  | .decBc1a => 0xFFFFFFFFFFFFFFFF
  | .expand5 => 0x1F
  | .expand6 => 0x3F
  | .reduce5 => 0xFF
  | .reduce6 => 0xFF
  | .unpack565 => 0xFFFF
  | .mix => 0x0707FFFF
  | .pal4 => 0xFFFFFFFF
  | .palBc1 => 0xFFFFFFFF
  | .idx2 => 0xFFFFFFFF
  | .idx3 => 0xFFFFFFFFFFFF
  | .alpha4 => 0xFFFFFFFFFFFFFFFF
  | .ramp8 => 0xFFFF

/-- The sixteen codes and the operations they select, spec/30_encoding.md R51 written out. -/
def codeTable : List (Byte × Op) :=
  [(0x01, .decBc1), (0x02, .decBc2), (0x03, .decBc3), (0x05, .decBc1a), (0x10, .expand5), (0x11, .expand6),
   (0x12, .reduce5), (0x13, .reduce6), (0x14, .unpack565), (0x20, .mix), (0x21, .pal4), (0x22, .palBc1),
   (0x30, .idx2), (0x31, .idx3), (0x40, .alpha4), (0x41, .ramp8)]

/-- `A[lo + width - 1 : lo]` of the operand `A = LE(arg[0..15])`, so that `arg[k][n-1:0]` is `field A (8*k) n`
(spec/30_encoding.md R50). -/
def field (A : BitVec 128) (lo width : Nat) : BitVec width := BitVec.ofNat width (A.toNat / 2 ^ lo)

/-- A request with this code asks for the operation with these operand fields, whatever the operand is: the
fields are a function of the bits named and of no others (spec/30_encoding.md R51, R53). -/
def reads (code : Byte) (fields : BitVec 128 → Instr) : Prop := ∀ A, decodeRequest ⟨code, A⟩ = .ok (fields A)

/-- A bulk call ends after at most two moves (the model's choice, log 12) with this status, and both buffers are as
they were. -/
def returnsAtOnce (s : State) (e : Status) : Prop :=
  ∃ n t, n ≤ 2 ∧ steps n s = .next t ∧ t.bulk = none ∧ t.bulkStatus = some e ∧ t.cbuf = s.cbuf ∧ t.obuf = s.obuf

/-- Byte `a` of OBUF belongs to the tile of block `p`: it is a byte of one of the tile's sixteen pixels. -/
def inTile (k : BlockKind) (c : BulkCall) (p : BlockPos) (a : Nat) : Prop :=
  ∃ i : Fin 16, texelOffset k c p i ≤ a ∧ a < texelOffset k c p i + bytesPerPixel k

/-- The operation code of the request that decodes one block of a kind (spec/45_bulk_driver.md R124,
spec/30_encoding.md R51). -/
def kindCode : BlockKind → Byte
  | .bc1 => 0x01
  | .bc1a => 0x05
  | .bc2 => 0x02
  | .bc3 => 0x03

end Sys2Proof.Claims

section
open Sys2Proof Sys2Proof.Machine Sys2Proof.Claims

/-! ## Encoding and decoding -/

/-- Decoding the seventeen bytes the encoder makes gives the instruction back, with every operand at every
value (the encodings of R50, R51 and R53). -/
def Obligations.DecodeOfEncodeIsIdentity : Prop := ∀ i : Instr, decode (encode i) = .ok i

/-- Requests written out byte by byte from spec/30_encoding.md R41 to R43, R51, R53 and the examples of
spec/95_test_vectors.md section 9 decode to the instructions they stand for. -/
def Obligations.SampleRequestsDecode : Prop :=
  decode [0x01, 0xFF, 0xFF, 0, 0, 0, 0, 0, 0, 0, 0, 0, 0, 0, 0, 0, 0] = .ok (.decBc1 ⟨0xFFFF, 0, 0⟩) ∧
  decode [0x03, 0xC8, 0x64, 0xBC, 0x9A, 0x78, 0x56, 0x34, 0x12, 0x34, 0x12, 0xCD, 0xAB, 0xFF, 0, 0x55, 0xAA] =
    .ok (.decBc3 ⟨200, 100, 0x123456789ABC, 0x1234, 0xABCD, 0xAA5500FF⟩) ∧
  decode [0x20, 0x12, 0x34, 0xFA, 0x09, 0, 0, 0, 0, 0, 0, 0, 0, 0, 0, 0, 0] = .ok (.mix 0x12 0x34 2 1) ∧
  decode [0x10, 0xFF, 0xAA, 0xBB, 0xCC, 0xDD, 0xEE, 0xFF, 0, 0x11, 0x22, 0x33, 0x44, 0x55, 0x66, 0x77, 0x88] =
    .ok (.expand5 31) ∧
  decode [0x30, 0x78, 0x56, 0x34, 0x12, 0, 0, 0, 0, 0, 0, 0, 0, 0, 0, 0, 0] = .ok (.idx2 0x12345678) ∧
  decode [0x41, 0xFF, 0, 0, 0, 0, 0, 0, 0, 0, 0, 0, 0, 0, 0, 0, 0] = .ok (.ramp8 255 0)

/-- R51: each of the sixteen codes selects its operation whatever the operand, and R52: every other value
of `op` selects none. -/
def Obligations.OpcodeSelectsByExactValue : Prop :=
  (∀ row ∈ codeTable, ∀ arg, ∃ i, decodeRequest ⟨row.1, arg⟩ = .ok i ∧ i.op = row.2) ∧
  (∀ op : Byte, op ∉ codeTable.map (·.1) → ∀ arg, decodeRequest ⟨op, arg⟩ = .error (.reservedOp op))

/-- R53: the bits an operation does not read may hold anything and never change the response. -/
def Obligations.IgnoredOperandBitsChangeNothing : Prop :=
  ∀ (o : Op) (A B : BitVec 128), A &&& readMask o = B &&& readMask o →
    ∀ s, serve ⟨o.code, A⟩ s = serve ⟨o.code, B⟩ s

/-- R41, R42, R43: where the fields of the three block layouts lie in the block's bytes, read by the four
block decode requests. -/
def Obligations.BlockFieldsLieWhereTheLayoutsSay : Prop :=
  ∀ b : Fin 16 → Byte,
    (∃ x : Bc1Block, decode (0x01 :: List.ofFn b) = .ok (.decBc1 x) ∧
      decode (0x05 :: List.ofFn b) = .ok (.decBc1a x) ∧
      x.color0.toNat = (b 0).toNat + 256 * (b 1).toNat ∧
      x.color1.toNat = (b 2).toNat + 256 * (b 3).toNat ∧
      x.colorIndices.toNat = leNat [b 4, b 5, b 6, b 7]) ∧
    (∃ x : Bc2Block, decode (0x02 :: List.ofFn b) = .ok (.decBc2 x) ∧
      x.alphaBits.toNat = leNat [b 0, b 1, b 2, b 3, b 4, b 5, b 6, b 7] ∧
      x.color0.toNat = (b 8).toNat + 256 * (b 9).toNat ∧
      x.color1.toNat = (b 10).toNat + 256 * (b 11).toNat ∧
      x.colorIndices.toNat = leNat [b 12, b 13, b 14, b 15]) ∧
    (∃ x : Bc3Block, decode (0x03 :: List.ofFn b) = .ok (.decBc3 x) ∧
      x.alpha0 = b 0 ∧ x.alpha1 = b 1 ∧
      x.alphaIndexBits.toNat = leNat [b 2, b 3, b 4, b 5, b 6, b 7] ∧
      x.color0.toNat = (b 8).toNat + 256 * (b 9).toNat ∧
      x.color1.toNat = (b 10).toNat + 256 * (b 11).toNat ∧
      x.colorIndices.toNat = leNat [b 12, b 13, b 14, b 15])

/-- R50 with the byte order of R21: seventeen bytes are a request, byte 0 is `op`, and bit `j` of
`A = LE(arg[0..15])` is bit `j mod 8` of byte `1 + floor(j/8)`. -/
def Obligations.RequestBytesAreLittleEndian : Prop :=
  ∀ b : Fin 17 → Byte, decode (List.ofFn b) = decodeRequest (Request.ofBytes (List.ofFn b)) ∧
    (Request.ofBytes (List.ofFn b)).op = b 0 ∧
    ∀ j : Fin 128, (Request.ofBytes (List.ofFn b)).arg.getLsbD j.val =
      (b ⟨1 + j.val / 8, by omega⟩).getLsbD (j.val % 8)

/-- U1: a byte list that is not seventeen bytes long is no request and is rejected by its length. -/
def Obligations.OtherLengthsAreRejected : Prop :=
  ∀ bytes : List Byte, bytes.length ≠ 17 → decode bytes = .error (.badLength bytes.length)

/-! ## The step -/

/-- A step at an instance that holds a request serves it, and serving a request that decodes runs the decoded
instruction on that very state; then the turn passes. With one instance the step is the instruction's execution. That
the turn passes, and that with a bulk call in progress the request is served before the driver moves, are the model's
choices (logs 3 and 5). -/
def Obligations.StepRunsTheDecodedInstruction : Prop :=
  (∀ (s : State) (r : Request), s.port.req = some r → step s = thenPassTurn (serve r s)) ∧
  (∀ (s : State) (r : Request) (i : Instr), s.port.req = some r → decodeRequest r = .ok i →
    step s = thenPassTurn (exec i s) ∧ (s.others = [] → step s = exec i s))

/-- A request presented as its encoded bytes is the one the next step runs, in every state (how a request comes to
run: log 15). That it replaces one still pending, that it is served before a driver move, and that the turn then
passes are the model's choices (logs 22, 5 and 3). -/
def Obligations.PresentedWordRunsNext : Prop :=
  ∀ (s : State) (i : Instr),
    step (s.withFetchWord 136 (leNat (encode i))) = thenPassTurn (exec i (s.placeRequest i.request))

/-- R52: a request with a reserved code is answered `UnsupportedFormat` with no result, whatever its
operand, and nothing else changes; so is the one operand-level reserved case, MIX with both weights zero. -/
def Obligations.ReservedRequestsAnswerUnsupportedFormat : Prop :=
  (∀ (s : State) (op : Byte) (arg : BitVec 128), op ∉ codeTable.map (·.1) →
    serve ⟨op, arg⟩ s = .next (answered s ⟨.unsupportedFormat, []⟩)) ∧
  (∀ (s : State) (v0 v1 : Byte), exec (.mix v0 v1 0 0) s = .next (answered s ⟨.unsupportedFormat, []⟩))

/-- With no request at the instance whose turn it is and no bulk call, a step only passes the turn; with
one instance it changes nothing (the model's choices: log 1 for a unit that is idle, log 3 for the turn). -/
def Obligations.IdleStepOnlyPassesTheTurn : Prop :=
  ∀ s : State, s.port.req = none → s.bulk = none →
    step s = .next s.passTurn ∧ (s.others = [] → step s = .next s)

/-! ## Results of the operations -/

/-- R71, R72: the operands and results of EXPAND5 and EXPAND6. -/
def Obligations.ExpandResults : Prop :=
  reads 0x10 (fun A => .expand5 (field A 0 5)) ∧ reads 0x11 (fun A => .expand6 (field A 0 6)) ∧
  (∀ (n : BitVec 5) (s : State), ∃ b : Byte, exec (.expand5 n) s = .next (answered s ⟨.ok, [b]⟩) ∧
    b.toNat = (n.toNat * 510 + 31) / 62) ∧
  (∀ (n : BitVec 6) (s : State), ∃ b : Byte, exec (.expand6 n) s = .next (answered s ⟨.ok, [b]⟩) ∧
    b.toNat = (n.toNat * 510 + 63) / 126)

/-- R74, R75: the operands and results of REDUCE5 and REDUCE6, upper bits 0. -/
def Obligations.ReduceResults : Prop :=
  reads 0x12 (fun A => .reduce5 (field A 0 8)) ∧ reads 0x13 (fun A => .reduce6 (field A 0 8)) ∧
  (∀ (n8 : Byte) (s : State), ∃ b : Byte, exec (.reduce5 n8) s = .next (answered s ⟨.ok, [b]⟩) ∧
    b.toNat = (n8.toNat * 62 + 255) / 510 ∧ b.toNat < 32) ∧
  (∀ (n8 : Byte) (s : State), ∃ b : Byte, exec (.reduce6 n8) s = .next (answered s ⟨.ok, [b]⟩) ∧
    b.toNat = (n8.toNat * 126 + 255) / 510 ∧ b.toNat < 64)

/-- R76 with the fields of R44: the operand and result of UNPACK565, red first. -/
def Obligations.Unpack565Result : Prop :=
  reads 0x14 (fun A => .unpack565 (field A 0 16)) ∧
  ∀ (c : PackedColor16) (s : State), ∃ r g b : Byte,
    exec (.unpack565 c) s = .next (answered s ⟨.ok, [r, g, b]⟩) ∧
    r.toNat = (c.toNat / 2048 * 510 + 31) / 62 ∧
    g.toNat = (c.toNat / 32 % 64 * 510 + 63) / 126 ∧
    b.toNat = (c.toNat % 32 * 510 + 31) / 62

/-- R82: the operands of MIX, its result with a non-zero weight sum, and its error when both weights are zero. -/
def Obligations.MixResultAndError : Prop :=
  reads 0x20 (fun A => .mix (field A 0 8) (field A 8 8) (field A 16 3) (field A 24 3)) ∧
  (∀ (v0 v1 : Byte) (w0 w1 : BitVec 3) (s : State), w0.toNat + w1.toNat ≠ 0 →
    ∃ b : Byte, exec (.mix v0 v1 w0 w1) s = .next (answered s ⟨.ok, [b]⟩) ∧
      b.toNat = (w0.toNat * v0.toNat + w1.toNat * v1.toNat) / (w0.toNat + w1.toNat)) ∧
  (∀ (v0 v1 : Byte) (w0 w1 : BitVec 3) (s : State), w0.toNat + w1.toNat = 0 →
    exec (.mix v0 v1 w0 w1) s = .next (answered s ⟨.unsupportedFormat, []⟩))

/-- R84 with R83: PAL4 reads two colours and answers the four entries of the 4-distinct-color table, whatever the order of the
two colours. -/
def Obligations.Pal4Result : Prop :=
  reads 0x21 (fun A => .pal4 (field A 0 16) (field A 16 16)) ∧
  ∀ (c0 c1 : PackedColor16) (s : State), ∃ res : List Byte,
    exec (.pal4 c0 c1) s = .next (answered s ⟨.ok, res⟩) ∧
    let p := unpack565 c0
    let q := unpack565 c1
    res.map BitVec.toNat =
      [p.r.toNat, p.g.toNat, p.b.toNat, 255, q.r.toNat, q.g.toNat, q.b.toNat, 255,
       (2 * p.r.toNat + q.r.toNat) / 3, (2 * p.g.toNat + q.g.toNat) / 3, (2 * p.b.toNat + q.b.toNat) / 3, 255,
       (p.r.toNat + 2 * q.r.toNat) / 3, (p.g.toNat + 2 * q.g.toNat) / 3, (p.b.toNat + 2 * q.b.toNat) / 3, 255]

/-- R87 with R85 and R86: PALBC1 reads two colours and answers what PAL4 answers when `color0 > color1` as raw 16-bit values, and
the 3-color table with the transparent entry 3 otherwise, equality included. -/
def Obligations.PalBc1Result : Prop :=
  reads 0x22 (fun A => .palBc1 (field A 0 16) (field A 16 16)) ∧
  ∀ (c0 c1 : PackedColor16) (s : State),
    (c0.toNat > c1.toNat → ∃ res : List Byte, exec (.palBc1 c0 c1) s = .next (answered s ⟨.ok, res⟩) ∧
      exec (.pal4 c0 c1) s = .next (answered s ⟨.ok, res⟩)) ∧
    (c0.toNat ≤ c1.toNat → ∃ res : List Byte, exec (.palBc1 c0 c1) s = .next (answered s ⟨.ok, res⟩) ∧
      let p := unpack565 c0
      let q := unpack565 c1
      res.map BitVec.toNat =
        [p.r.toNat, p.g.toNat, p.b.toNat, 255, q.r.toNat, q.g.toNat, q.b.toNat, 255,
         (p.r.toNat + q.r.toNat) / 2, (p.g.toNat + q.g.toNat) / 2, (p.b.toNat + q.b.toNat) / 2, 255,
         0, 0, 0, 0])

/-- R91, R93, R102: lane `i` of IDX2, IDX3 and ALPHA4 is `ci[2i+1:2i]`, `ai[3i+2:3i]` and
`(ab[4i+3:4i] * 255) / 15`, sixteen lanes in ascending texel index; with the operands they read. -/
def Obligations.LaneResults : Prop :=
  reads 0x30 (fun A => .idx2 (field A 0 32)) ∧ reads 0x31 (fun A => .idx3 (field A 0 48)) ∧
  reads 0x40 (fun A => .alpha4 (field A 0 64)) ∧
  (∀ (ci : BitVec 32) (s : State), ∃ res : List Byte, exec (.idx2 ci) s = .next (answered s ⟨.ok, res⟩) ∧
    res.map BitVec.toNat = (List.range 16).map fun i => ci.toNat / 2 ^ (2 * i) % 4) ∧
  (∀ (ai : BitVec 48) (s : State), ∃ res : List Byte, exec (.idx3 ai) s = .next (answered s ⟨.ok, res⟩) ∧
    res.map BitVec.toNat = (List.range 16).map fun i => ai.toNat / 2 ^ (3 * i) % 8) ∧
  (∀ (ab : BitVec 64) (s : State), ∃ res : List Byte, exec (.alpha4 ab) s = .next (answered s ⟨.ok, res⟩) ∧
    res.map BitVec.toNat = (List.range 16).map fun i => ab.toNat / 2 ^ (4 * i) % 16 * 255 / 15)

/-- R103 with R101: RAMP8 reads two alphas and answers the 6-step ramp when `a0 > a1` and the 4-step ramp with its two constants
otherwise, equality included. -/
def Obligations.Ramp8Result : Prop :=
  reads 0x41 (fun A => .ramp8 (field A 0 8) (field A 8 8)) ∧
  ∀ (a0 a1 : Byte) (s : State), ∃ res : List Byte,
    exec (.ramp8 a0 a1) s = .next (answered s ⟨.ok, res⟩) ∧
    let x := a0.toNat
    let y := a1.toNat
    (x > y → res.map BitVec.toNat =
      [x, y, (6 * x + 1 * y) / 7, (5 * x + 2 * y) / 7, (4 * x + 3 * y) / 7, (3 * x + 4 * y) / 7,
       (2 * x + 5 * y) / 7, (1 * x + 6 * y) / 7]) ∧
    (x ≤ y → res.map BitVec.toNat =
      [x, y, (4 * x + 1 * y) / 5, (3 * x + 2 * y) / 5, (2 * x + 3 * y) / 5, (1 * x + 4 * y) / 5, 0, 255])

/-- R111: DEC_BC1A reads the BC1 block and answers 64 bytes; texel `i` is the entry of the table of PALBC1 its 2-bit index selects,
as R, G, B, A. -/
def Obligations.DecBc1aResult : Prop :=
  reads 0x05 (fun A => .decBc1a ⟨field A 0 16, field A 16 16, field A 32 32⟩) ∧
  ∀ (block : Bc1Block) (s : State), ∃ res : List Byte,
    exec (.decBc1a block) s = .next (answered s ⟨.ok, res⟩) ∧ res.length = 64 ∧
    ∀ (i : Fin 16) (k : Fin 4), k.val = block.colorIndices.toNat / 2 ^ (2 * i.val) % 4 →
      (res.drop (4 * i.val)).take 4 = ((palBc1 block.color0 block.color1).get k).bytes

/-- R112: DEC_BC1 reads the BC1 block and answers 48 bytes: the tile of DEC_BC1A with the fourth byte of each pixel left out. -/
def Obligations.DecBc1Result : Prop :=
  reads 0x01 (fun A => .decBc1 ⟨field A 0 16, field A 16 16, field A 32 32⟩) ∧
  ∀ (block : Bc1Block) (s : State), ∃ res resA : List Byte,
    exec (.decBc1 block) s = .next (answered s ⟨.ok, res⟩) ∧
    exec (.decBc1a block) s = .next (answered s ⟨.ok, resA⟩) ∧ res.length = 48 ∧
    ∀ i : Fin 16, (res.drop (3 * i.val)).take 3 = (resA.drop (4 * i.val)).take 3

/-- R113: DEC_BC2 reads the BC2 block and answers 64 bytes; texel `i` has the colour of the table of PAL4 (never the 3-color table)
its 2-bit index selects, and the explicit alpha `(ab[4i+3:4i] * 255) / 15`. -/
def Obligations.DecBc2Result : Prop :=
  reads 0x02 (fun A => .decBc2 ⟨field A 0 64, field A 64 16, field A 80 16, field A 96 32⟩) ∧
  ∀ (block : Bc2Block) (s : State), ∃ res : List Byte,
    exec (.decBc2 block) s = .next (answered s ⟨.ok, res⟩) ∧ res.length = 64 ∧
    ∀ (i : Fin 16) (k : Fin 4), k.val = block.colorIndices.toNat / 2 ^ (2 * i.val) % 4 →
      ∃ a : Byte, a.toNat = block.alphaBits.toNat / 2 ^ (4 * i.val) % 16 * 255 / 15 ∧
        (res.drop (4 * i.val)).take 4 =
          (((pal4 block.color0 block.color1).get k).rgb.withAlpha a).bytes

/-- R114: DEC_BC3 reads the BC3 block and answers 64 bytes; texel `i` has the colour of the table of PAL4 its 2-bit index selects,
and the alpha of the table of RAMP8 its 3-bit index selects. -/
def Obligations.DecBc3Result : Prop :=
  reads 0x03 (fun A =>
    .decBc3 ⟨field A 0 8, field A 8 8, field A 16 48, field A 64 16, field A 80 16, field A 96 32⟩) ∧
  ∀ (block : Bc3Block) (s : State), ∃ res : List Byte,
    exec (.decBc3 block) s = .next (answered s ⟨.ok, res⟩) ∧ res.length = 64 ∧
    ∀ (i : Fin 16) (k : Fin 4) (m : Fin 8),
      k.val = block.colorIndices.toNat / 2 ^ (2 * i.val) % 4 →
      m.val = block.alphaIndexBits.toNat / 2 ^ (3 * i.val) % 8 →
        (res.drop (4 * i.val)).take 4 =
          (((pal4 block.color0 block.color1).get k).rgb.withAlpha
            ((ramp8 block.alpha0 block.alpha1).get m)).bytes

/-! ## Laws of the function units -/

/-- The properties of spec/40_depth_convert.md section 3: `reduce` undoes `expand` at both widths; `expand` is
strictly increasing with smallest step 8 and 4 and `reduce` non-decreasing; the other round trip is off by at
most 4 (5 bits) and 2 (6 bits), and by that much somewhere. The step sizes and the two distances are marked in
the spec as derived ("strictness and step sizes from the tables", "computed over all 256 inputs"). -/
def Obligations.DepthConversionLaws : Prop :=
  (∀ n : BitVec 5, reduce5 (expand5 n) = n) ∧ (∀ n : BitVec 6, reduce6 (expand6 n) = n) ∧
  (∀ n m : BitVec 5, n < m → (expand5 n).toNat + 8 ≤ (expand5 m).toNat) ∧
  (∃ n m : BitVec 5, n < m ∧ (expand5 n).toNat + 8 = (expand5 m).toNat) ∧
  (∀ n m : BitVec 6, n < m → (expand6 n).toNat + 4 ≤ (expand6 m).toNat) ∧
  (∃ n m : BitVec 6, n < m ∧ (expand6 n).toNat + 4 = (expand6 m).toNat) ∧
  (∀ n m : Byte, n ≤ m → reduce5 n ≤ reduce5 m) ∧ (∀ n m : Byte, n ≤ m → reduce6 n ≤ reduce6 m) ∧
  (∀ m : Byte, ((expand5 (reduce5 m)).toNat : Int) - m.toNat ≤ 4 ∧
    (m.toNat : Int) - (expand5 (reduce5 m)).toNat ≤ 4) ∧
  (∀ m : Byte, ((expand6 (reduce6 m)).toNat : Int) - m.toNat ≤ 2 ∧
    (m.toNat : Int) - (expand6 (reduce6 m)).toNat ≤ 2) ∧
  (∃ m : Byte, ((m.toNat : Int) - (expand5 (reduce5 m)).toNat).natAbs = 4) ∧
  (∃ m : Byte, ((m.toNat : Int) - (expand6 (reduce6 m)).toNat).natAbs = 2)

/-- The mix of spec/41_palette.md section 1: for all weights with a positive sum it is the whole sum divided and
truncated, lies between its two values, keeps equal values, and is the same with the pairs exchanged (the spec
marks the last three "derived: from rule R80", and the whole-sum division as its decision D9, log 19). -/
def Obligations.MixLaws : Prop :=
  ∀ (w0 w1 : Nat) (v0 v1 : Byte), 0 < w0 + w1 →
    (mix w0 v0 w1 v1).toNat = (w0 * v0.toNat + w1 * v1.toNat) / (w0 + w1) ∧
    min v0.toNat v1.toNat ≤ (mix w0 v0 w1 v1).toNat ∧ (mix w0 v0 w1 v1).toNat ≤ max v0.toNat v1.toNat ∧
    mix w0 v0 w1 v0 = v0 ∧ mix w0 v0 w1 v1 = mix w1 v1 w0 v0

/-- Every colour of a PAL4 response and every value of a RAMP8 response lies between its two references,
but for the constants 0 and 255 of the 4-step ramp (spec/95_test_vectors.md section 8, item 6). -/
def Obligations.TableEntriesLieBetweenReferences : Prop :=
  (∀ (c0 c1 : PackedColor16) (k : Fin 4) (ch : Rgb → Byte), ch ∈ [Rgb.r, Rgb.g, Rgb.b] →
    let v := (ch ((pal4 c0 c1).get k).rgb).toNat
    min (ch (unpack565 c0)).toNat (ch (unpack565 c1)).toNat ≤ v ∧
      v ≤ max (ch (unpack565 c0)).toNat (ch (unpack565 c1)).toNat) ∧
  (∀ (a0 a1 : Byte) (k : Fin 8), (a0.toNat > a1.toNat ∨ k.val < 6) →
    min a0.toNat a1.toNat ≤ ((ramp8 a0 a1).get k).toNat ∧
      ((ramp8 a0 a1).get k).toNat ≤ max a0.toNat a1.toNat)

/-- R94: every byte of an IDX2 response is at most 3 and of an IDX3 response at most 7, so every lookup is
in range. -/
def Obligations.IndicesAreInRange : Prop :=
  (∀ (ci : BitVec 32) (s : State), ∃ res : List Byte, exec (.idx2 ci) s = .next (answered s ⟨.ok, res⟩) ∧
    ∀ b ∈ res, b.toNat ≤ 3) ∧
  (∀ (ai : BitVec 48) (s : State), ∃ res : List Byte, exec (.idx3 ai) s = .next (answered s ⟨.ok, res⟩) ∧
    ∀ b ∈ res, b.toNat ≤ 7)

/-- The transparency of DEC_BC1A (spec/95_test_vectors.md S4, S5): with `color0 > color1` every pixel has
alpha 255; otherwise a texel with index 3 is `(0, 0, 0, 0)` and every other pixel has alpha 255. -/
def Obligations.Bc1TransparencyOnlyInThreeColorMode : Prop :=
  ∀ (block : Bc1Block) (i : Fin 16),
    (block.color0.toNat > block.color1.toNat → (decBc1a block i).a = 255) ∧
    (block.color0.toNat ≤ block.color1.toNat →
      (block.colorIndices.toNat / 2 ^ (2 * i.val) % 4 = 3 → decBc1a block i = ⟨0, 0, 0, 0⟩) ∧
      (block.colorIndices.toNat / 2 ^ (2 * i.val) % 4 ≠ 3 → (decBc1a block i).a = 255))

/-- R174: lane `i` of IDX2, IDX3 and ALPHA4 depends on its own bits only, pixel `i` of a tile on the tile's
references and on the texel's own index and alpha bits only, and each channel of `mix3` on that channel only. -/
def Obligations.LanesAreIndependent : Prop :=
  (∀ (x y : BitVec 32) (i : Fin 16), x.extractLsb' (2 * i.val) 2 = y.extractLsb' (2 * i.val) 2 →
    idx2 x i = idx2 y i ∧
    (∀ c0 c1 ab ab', BitVec.extractLsb' (4 * i.val) 4 ab = BitVec.extractLsb' (4 * i.val) 4 ab' →
      alpha4 ab i = alpha4 ab' i ∧ decBc2 ⟨ab, c0, c1, x⟩ i = decBc2 ⟨ab', c0, c1, y⟩ i) ∧
    (∀ a0 a1 c0 c1 ai ai', BitVec.extractLsb' (3 * i.val) 3 ai = BitVec.extractLsb' (3 * i.val) 3 ai' →
      idx3 ai i = idx3 ai' i ∧ decBc3 ⟨a0, a1, ai, c0, c1, x⟩ i = decBc3 ⟨a0, a1, ai', c0, c1, y⟩ i) ∧
    (∀ c0 c1, decBc1a ⟨c0, c1, x⟩ i = decBc1a ⟨c0, c1, y⟩ i ∧ decBc1 ⟨c0, c1, x⟩ i = decBc1 ⟨c0, c1, y⟩ i)) ∧
  (∀ (w0 w1 : Nat) (p q p' q' : Rgb),
    (p.r = p'.r → q.r = q'.r → (mix3 w0 p w1 q).r = (mix3 w0 p' w1 q').r) ∧
    (p.g = p'.g → q.g = q'.g → (mix3 w0 p w1 q).g = (mix3 w0 p' w1 q').g) ∧
    (p.b = p'.b → q.b = q'.b → (mix3 w0 p w1 q).b = (mix3 w0 p' w1 q').b))

/-- The ramp property of spec/43_alpha.md section 2 (there "derived: from rule R101"): RAMP8 of 255 and 0 answers 255 first and 0 second, and falls strictly in the order of
interpolation, entries 0, 2, 3, 4, 5, 6, 7, 1. -/
def Obligations.FullRampFallsStrictly : Prop :=
  ∀ s : State, ∃ res : List Byte, exec (.ramp8 255 0) s = .next (answered s ⟨.ok, res⟩) ∧
    res.map BitVec.toNat = [255, 0, 218, 182, 145, 109, 72, 36] ∧
    ([0, 2, 3, 4, 5, 6, 7, 1].map fun k => (res.getD k 0).toNat).Pairwise (fun x y => y < x)

/-- DEC_BC2 and DEC_BC3 are the composition of the function units as requests (spec/95_test_vectors.md
section 8 item 4 and program P7): texel `i` is the colour of the PAL4 response at the IDX2 response's
lane `i`, with lane `i` of ALPHA4, or the RAMP8 entry at lane `i` of IDX3. -/
def Obligations.BlockDecodesComposeTheUnits : Prop :=
  (∀ (b : Bc2Block) (s : State), ∃ tile pal ix al : List Byte,
    exec (.decBc2 b) s = .next (answered s ⟨.ok, tile⟩) ∧
    exec (.pal4 b.color0 b.color1) s = .next (answered s ⟨.ok, pal⟩) ∧
    exec (.idx2 b.colorIndices) s = .next (answered s ⟨.ok, ix⟩) ∧
    exec (.alpha4 b.alphaBits) s = .next (answered s ⟨.ok, al⟩) ∧
    ∀ i : Fin 16, (tile.drop (4 * i.val)).take 4 =
      (pal.drop (4 * (ix.getD i.val 0).toNat)).take 3 ++ (al.drop i.val).take 1) ∧
  (∀ (b : Bc3Block) (s : State), ∃ tile pal ix ramp ax : List Byte,
    exec (.decBc3 b) s = .next (answered s ⟨.ok, tile⟩) ∧
    exec (.pal4 b.color0 b.color1) s = .next (answered s ⟨.ok, pal⟩) ∧
    exec (.idx2 b.colorIndices) s = .next (answered s ⟨.ok, ix⟩) ∧
    exec (.ramp8 b.alpha0 b.alpha1) s = .next (answered s ⟨.ok, ramp⟩) ∧
    exec (.idx3 b.alphaIndexBits) s = .next (answered s ⟨.ok, ax⟩) ∧
    ∀ i : Fin 16, (tile.drop (4 * i.val)).take 4 =
      (pal.drop (4 * (ix.getD i.val 0).toNat)).take 3 ++ (ramp.drop (ax.getD i.val 0).toNat).take 1)

/-! ## The machine as a whole -/

/-- R14: a request is answered in every state by exactly one response, which is a function of the request
alone; its status is `OK` or `UnsupportedFormat`, and it has the result bytes of its operation when the
status is `OK` and none otherwise. -/
def Obligations.ResponseIsAFunctionOfTheRequest : Prop :=
  ∀ r : Request, ∃ rsp : Response,
    (∀ s : State, serve r s = .next (answered s rsp)) ∧
    ((rsp.status = .ok ∧ ∃ o : Op, r.op = o.code ∧ rsp.res.length = resultLength o) ∨
      (rsp.status = .unsupportedFormat ∧ rsp.res = []))

/-- R148: a legal instruction is answered `OK`; the one that is not, MIX with both weights zero, is
answered `UnsupportedFormat` with no result. No instruction faults or is refused. -/
def Obligations.LegalInstructionsNeverRaise : Prop :=
  ∀ (i : Instr) (s : State),
    (i.wf = true → ∃ res : List Byte, exec i s = .next (answered s ⟨.ok, res⟩) ∧
      res.length = resultLength i.op) ∧
    (i.wf = false → (∃ v0 v1, i = .mix v0 v1 0 0) ∧
      exec i s = .next (answered s ⟨.unsupportedFormat, []⟩))

/-- The frame of every operation (DEC_BC1, DEC_BC2, DEC_BC3, DEC_BC1A, EXPAND5, EXPAND6, REDUCE5, REDUCE6,
UNPACK565, MIX, PAL4, PALBC1, IDX2, IDX3, ALPHA4, RAMP8): the request is consumed and a response given, and
the other instances, both buffers with every byte of them, the bulk call and its status are as before. -/
def Obligations.OperationsTouchNothingElse : Prop :=
  ∀ (i : Instr) (s t : State), exec i s = .next t →
    t.port.req = none ∧ t.port.rsp.isSome = true ∧ t.others = s.others ∧
    t.cbuf = s.cbuf ∧ t.obuf = s.obuf ∧
    (∀ a, t.cbuf.read a = s.cbuf.read a ∧ t.obuf.read a = s.obuf.read a) ∧
    t.bulk = s.bulk ∧ t.bulkStatus = s.bulkStatus

/-- Whatever a request was answered, an error included, the next request at that instance is answered as if it
were the first, and as at an idle instance: nothing needs to be cleared (spec/60_exceptions.md section 5, there
"derived: from rules R10 and R17"). With one instance the same holds of steps (that a
request presented over a pending one replaces it, and is served before a driver move, are the model's choices, logs 22
and 5). -/
def Obligations.NoMemoryOfEarlierRequests : Prop :=
  (∀ (s t : State) (r r' : Request), serve r s = .next t →
    serve r' t = serve r' s ∧ serve r' t = serve r' { s with port := ⟨none, none⟩ }) ∧
  (∀ (s t u v : State) (r r' : Request), s.others = [] →
    step (s.placeRequest r) = .next t → step (t.placeRequest r') = .next u →
    step (s.placeRequest r') = .next v → u = v)

/-- spec/60_exceptions.md section 9: a step changes no instance but the one whose turn it is, and that one only if it
holds a request. The order of the turns, that a pending request is answered while a bulk call is in progress, and that
a driver move touches no instance, are the model's choices (logs 3, 5 and 6). -/
def Obligations.StepTouchesOneInstance : Prop :=
  ∀ s t : State, step s = .next t →
    ∃ p : Port, t.ports = s.others ++ [p] ∧ (s.port.req = none → p = s.port) ∧
      (s.port.req ≠ none → p.req = none ∧ p.rsp.isSome = true) ∧ t.numInstances = s.numInstances

/-- spec/10_state.md section 9 and spec/70_reset_and_hazards.md section 1: after reset no request is pending and no response is owed, and a request presented to a
freshly reset decoder is answered as in any other state. That a reset of the decoder leaves both buffers as they are
is the model's choice (log 20). -/
def Obligations.ResetLeavesEveryInstanceIdle : Prop :=
  (∀ p ∈ State.reset.ports, p = ⟨none, none⟩) ∧
  (∀ s : State, (∀ p ∈ s.resetDecoder.ports, p = ⟨none, none⟩) ∧
    s.resetDecoder.numInstances = s.numInstances ∧
    s.resetDecoder.cbuf = s.cbuf ∧ s.resetDecoder.obuf = s.obuf) ∧
  (∀ (s : State) (r : Request), ∃ rsp : Response,
    serve r s = .next (answered s rsp) ∧ serve r s.resetDecoder = .next (answered s.resetDecoder rsp))

/-! ## The invariant -/

/-- The invariant of Safety.lean (buffers in canonical form, only responses the port can give, the bulk
call consistent with its checks and the buffers) holds at reset (the reset values of the host's side: the model's
choices, logs 4, 10 and 13). -/
def Obligations.InvariantHoldsAtReset : Prop := State.reset.inv = true

/-- Every step from every state that meets the invariant leads to a state that meets it. That OBUF has its length while
blocks are left, the canonical form without zero bytes, and the phases of a call are the model's choices (logs 7, 8
and 12). -/
def Obligations.EveryStepKeepsTheInvariant : Prop :=
  ∀ s t : State, s.inv = true → step s = .next t → t.inv = true

/-- From every state that meets the invariant a step answers a next state, but for a bulk call whose size
has no meaning: no buffer access ever leaves its buffer (R26, R27). That an idle step is a next state, that such a call
stops in its first move, and that an access outside a buffer would fault are the model's choices (logs 1, 11 and 9). -/
def Obligations.NoAccessLeavesItsBuffer : Prop :=
  ∀ s : State, s.inv = true → (∃ t, step s = .next t) ∨
    (∃ c, s.bulk = some ⟨c, .start⟩ ∧ c.wf = false ∧ step s = .refused (.bulkSize c.width c.height))

/-! ## The bulk driver -/

/-- spec/45_bulk_driver.md section 2: a bulk call whose width or height is not a multiple of 4 is refused, whatever
else it says. That the refusal is the first move and comes before check 1, for an unsupported format too, is the
model's reading (log 11; the moves: log 12). -/
def Obligations.BulkRefusesOtherSizes : Prop :=
  ∀ (s : State) (c : BulkCall), s.port.req = none → s.bulk = some ⟨c, .start⟩ →
    (c.width % 4 ≠ 0 ∨ c.height % 4 ≠ 0) → step s = .refused (.bulkSize c.width c.height)

/-- spec/45_bulk_driver.md section 3: the two checks of a bulk call, in their order. A format that is not 1, 2 or 3 returns
`UnsupportedFormat` whatever the buffers; otherwise a compressed buffer shorter than
`blocksPerRow * blockRows * blockByteSize` returns `TruncatedInput`; both before anything is written. That each check is one move, so that two moves suffice, is
the model's choice (log 12). -/
def Obligations.BulkChecksInOrderWriteNothing : Prop :=
  (∀ (s : State) (c : BulkCall), s.allIdle = true → s.bulk = some ⟨c, .start⟩ →
    c.width % 4 = 0 → c.height % 4 = 0 → c.fmt ≠ 1 → c.fmt ≠ 2 → c.fmt ≠ 3 →
    returnsAtOnce s .unsupportedFormat) ∧
  (∀ (s : State) (c : BulkCall), s.allIdle = true → s.bulk = some ⟨c, .start⟩ →
    c.width % 4 = 0 → c.height % 4 = 0 →
    (c.fmt = 1 ∧ s.cbuf.len < c.width / 4 * (c.height / 4) * 8 ∨
      (c.fmt = 2 ∨ c.fmt = 3) ∧ s.cbuf.len < c.width / 4 * (c.height / 4) * 16) →
    returnsAtOnce s .truncatedInput)

/-- spec/45_bulk_driver.md section 2: `fmt` 1, 2 and 3 select BC1, BC2 and BC3, `alpha` is looked at only for BC1, and every other
value is unsupported. -/
def Obligations.FormatTagSelectsTheDecoder : Prop :=
  ∀ c : BulkCall,
    (kindOf c = some .bc1 ↔ c.fmt = 1 ∧ c.alpha = false) ∧
    (kindOf c = some .bc1a ↔ c.fmt = 1 ∧ c.alpha = true) ∧
    (kindOf c = some .bc2 ↔ c.fmt = 2) ∧ (kindOf c = some .bc3 ↔ c.fmt = 3) ∧
    (kindOf c = none ↔ c.fmt ≠ 1 ∧ c.fmt ≠ 2 ∧ c.fmt ≠ 3)

/-- spec/45_bulk_driver.md section 3: the move for a block reads the block at `(br*blocksPerRow + bc)*blockByteSize` and writes
texel `(x, y)` of its tile at `((br*4 + y)*width + bc*4 + x)*bytesPerPixel`; every other byte of OBUF,
CBUF and every instance are as before, and the block is no longer to do. One block per move, in the order of the list,
the call's return in the last one, every instance as before, and the turn then passing are the model's choices (logs 12
and 16, 6, and 3). -/
def Obligations.BlockMoveWritesOneTile : Prop :=
  ∀ (s : State) (c : BulkCall) (k : BlockKind) (p : BlockPos) (rest : List BlockPos),
    s.inv = true → s.port.req = none → s.bulk = some ⟨c, .blocks k (p :: rest)⟩ →
    ∃ (block : List Byte) (t : State),
      s.cbuf.readBytes ((p.br * (c.width / 4) + p.bc) * blockByteSize k) (blockByteSize k) = some block ∧
      step s = .next t ∧ t.cbuf = s.cbuf ∧ t.ports = s.others ++ [s.port] ∧
      t.obuf.len = s.obuf.len ∧
      (∀ (x y : Fin 4) (j : Nat), j < bytesPerPixel k →
        t.obuf.read (((p.br * 4 + y.val) * c.width + p.bc * 4 + x.val) * bytesPerPixel k + j) =
          (blockTexels k block (texelIndex x y))[j]?) ∧
      (∀ a, ¬ inTile k c p a → t.obuf.read a = s.obuf.read a) ∧
      (rest ≠ [] → t.bulk = some ⟨c, .blocks k rest⟩ ∧ t.bulkStatus = s.bulkStatus) ∧
      (rest = [] → t.bulk = none ∧ t.bulkStatus = some .ok)

/-- The tile the driver writes is the response of the block decode request for the block: DEC_BC1,
DEC_BC1A, DEC_BC2 or DEC_BC3 with the block as its operand, zero-padded (R120, R124; that the driver decodes by the functions and not through a port is log 6). -/
def Obligations.DriverTilesAreBlockDecodeResponses : Prop :=
  ∀ (k : BlockKind) (block : List Byte), block.length = blockByteSize k →
    ∃ i : Instr, decode (kindCode k :: (block ++ List.replicate (16 - blockByteSize k) 0)) = .ok i ∧
      ∀ s : State, exec i s = .next (answered s ⟨.ok, (List.ofFn (blockTexels k block)).flatten⟩)

/-- spec/20_memory.md section 8 (there "derived: from rules R124 and R125"): in an image whose sides are multiples of 4, every byte of the output buffer belongs to
exactly one byte of one texel of one block of the grid. -/
def Obligations.EveryOutputByteBelongsToOneBlock : Prop :=
  ∀ (k : BlockKind) (c : BulkCall), c.width % 4 = 0 → c.height % 4 = 0 →
    (∀ a, a < c.height * (c.width * bytesPerPixel k) →
      ∃ (p : BlockPos) (i : Fin 16) (j : Nat), p ∈ blockGrid c ∧ j < bytesPerPixel k ∧
        a = texelOffset k c p i + j) ∧
    (∀ (p q : BlockPos) (i i' : Fin 16) (j j' : Nat), p ∈ blockGrid c → q ∈ blockGrid c →
      j < bytesPerPixel k → j' < bytesPerPixel k →
      texelOffset k c p i + j < c.height * (c.width * bytesPerPixel k) ∧
      (texelOffset k c p i + j = texelOffset k c q i' + j' → p = q ∧ i = i' ∧ j = j'))

/-- spec/45_bulk_driver.md sections 3 and 4: a bulk call that passes its two checks returns `OK` after
`2 + blocksPerRow * blockRows` moves; OBUF has exactly `height * stride` bytes, and byte `j` of pixel `(px, py)` is
byte `j` of texel `(px mod 4, py mod 4)` of the tile of block `(px / 4, py / 4)`, for every pixel; CBUF is as it was.
That OBUF gets its length in check 2, the number of moves, and the order of the blocks are the model's choices
(logs 7, 12 and 16). -/
def Obligations.BulkCallDecodesTheWholeImage : Prop :=
  ∀ (s : State) (c : BulkCall) (k : BlockKind), s.inv = true → s.allIdle = true →
    s.bulk = some ⟨c, .start⟩ → c.width % 4 = 0 → c.height % 4 = 0 → kindOf c = some k →
    c.width / 4 * (c.height / 4) * blockByteSize k ≤ s.cbuf.len →
    ∃ t, steps (2 + c.width / 4 * (c.height / 4)) s = .next t ∧
      t.bulk = none ∧ t.bulkStatus = some .ok ∧ t.cbuf = s.cbuf ∧
      t.obuf.len = c.height * (c.width * bytesPerPixel k) ∧
      ∀ (px py j : Nat), px < c.width → py < c.height → j < bytesPerPixel k →
        ∃ (block : List Byte) (x y : Fin 4), x.val = px % 4 ∧ y.val = py % 4 ∧
          s.cbuf.readBytes ((py / 4 * (c.width / 4) + px / 4) * blockByteSize k) (blockByteSize k) =
            some block ∧
          t.obuf.read ((py * c.width + px) * bytesPerPixel k + j) =
            (blockTexels k block (texelIndex x y))[j]?

/-- spec/45_bulk_driver.md section 4: the blocks still to do may be visited in any order: from two states that differ only in
that order, the call ends in one and the same state (one block per move is the model's choice, log 12). -/
def Obligations.BlockOrderIsFree : Prop :=
  ∀ (s : State) (c : BulkCall) (k : BlockKind) (todo todo' : List BlockPos), s.inv = true →
    s.allIdle = true → s.bulk = some ⟨c, .blocks k todo⟩ → todo.Perm todo' → todo ≠ [] →
    ∃ t, steps todo.length s = .next t ∧
      steps todo.length { s with bulk := some ⟨c, .blocks k todo'⟩ } = .next t ∧
      t.bulk = none ∧ t.bulkStatus = some .ok

/-- spec/45_bulk_driver.md section 3: a compressed buffer of at least `required` bytes, longer ones included, passes check 2, and the bytes at
offsets `required` and above are never read: a state whose compressed buffer agrees below `required` makes the
same block moves. That check 2 is one move, after which the blocks to do are the grid in row-major order, is the model's
choice (logs 12 and 16); that a grid of no blocks returns `OK` at once is R131, with log 12 for the move. -/
def Obligations.ExcessCompressedBytesAreNeverRead : Prop :=
  (∀ (s : State) (c : BulkCall) (k : BlockKind), s.port.req = none → s.bulk = some ⟨c, .formatChecked k⟩ →
    c.width / 4 * (c.height / 4) * blockByteSize k ≤ s.cbuf.len →
    ∃ t, step s = .next t ∧ (blockGrid c ≠ [] → t.bulk = some ⟨c, .blocks k (blockGrid c)⟩) ∧
      (blockGrid c = [] → t.bulk = none ∧ t.bulkStatus = some .ok)) ∧
  (∀ (s t : State) (m : Memory) (c : BulkCall) (k : BlockKind) (todo : List BlockPos), s.inv = true →
    s.port.req = none → s.bulk = some ⟨c, .blocks k todo⟩ → m.wf = true →
    c.width / 4 * (c.height / 4) * blockByteSize k ≤ m.len →
    (∀ a, a < c.width / 4 * (c.height / 4) * blockByteSize k → m.read a = s.cbuf.read a) →
    step s = .next t → step { s with cbuf := m } = .next { t with cbuf := m })

/-- spec/20_memory.md sections 1 and 8: no step changes the compressed buffer. -/
def Obligations.CompressedBufferIsReadOnly : Prop :=
  ∀ s t : State, step s = .next t → t.cbuf = s.cbuf

/-- Requests and the driver do not disturb each other: serving a request and then letting the driver move
gives the state that the driver's move and then the request give (so the model's order of the two, log 5,
does not matter; that a driver move leaves every instance's port alone is log 6). -/
def Obligations.RequestAndDriverMovesCommute : Prop :=
  ∀ (s u v : State) (r : Request) (run : BulkRun), serve r s = .next u → bulkMove run u = .next v →
    ∃ w, bulkMove run s = .next w ∧ serve r w = .next v

end
end

