-- ==== Sys2Proof/Laws/Bits.lean ====
section
/-! SUPPORT. Little-endian numbers and their bytes, the block layouts and the opcode table. -/

namespace Sys2Proof

theorem leNat_lt (bs : List Byte) : leNat bs < 256 ^ bs.length := by
  induction bs with
  | nil => simp [leNat]
  | cons b bs ih =>
    have := b.isLt
    simp only [leNat, List.length_cons, Nat.pow_succ]
    omega

@[simp] theorem bytesLE_length (n v : Nat) : (bytesLE n v).length = n := by
  induction n generalizing v with
  | zero => rfl
  | succ n ih => simp [bytesLE, ih]

/-- The bytes of a number spell the number, cut to their width. -/
theorem leNat_bytesLE (n v : Nat) : leNat (bytesLE n v) = v % 256 ^ n := by
  induction n generalizing v with
  | zero => simp [bytesLE, leNat, Nat.mod_one]
  | succ n ih =>
    rw [bytesLE, leNat, ih, Nat.pow_succ, Nat.mul_comm (256 ^ n) 256, Nat.mod_mul]
    simp

/-- The number of a byte sequence has those bytes. -/
theorem bytesLE_leNat (bs : List Byte) : bytesLE bs.length (leNat bs) = bs := by
  induction bs with
  | nil => rfl
  | cons b bs ih =>
    have hb := b.isLt
    have h1 : (b.toNat + 256 * leNat bs) / 256 = leNat bs := by omega
    have h2 : BitVec.ofNat 8 (b.toNat + 256 * leNat bs) = b := by
      apply BitVec.eq_of_toNat_eq; simp; omega
    rw [List.length_cons, bytesLE, leNat, h1, h2, ih]

/-- Bit `j` of `LE(b)` is bit `j mod 8` of byte `j / 8` (spec/20_memory.md R21). -/
theorem leNat_testBit (bs : List Byte) (j : Nat) :
    (leNat bs).testBit j = ((bs[j / 8]?).getD 0).getLsbD (j % 8) := by
  induction bs generalizing j with
  | nil => simp [leNat]
  | cons b bs ih =>
    have hb : b.toNat < 2 ^ 8 := b.isLt
    rw [leNat, show b.toNat + 256 * leNat bs = 2 ^ 8 * leNat bs + b.toNat by omega,
      Nat.testBit_two_pow_mul_add _ hb]
    by_cases hj : j < 8
    · rw [if_pos hj, Nat.div_eq_of_lt hj, Nat.mod_eq_of_lt hj]; rfl
    · obtain ⟨k, rfl⟩ : ∃ k, j = k + 8 := ⟨j - 8, by omega⟩
      rw [if_neg hj, Nat.add_sub_cancel, ih, show (k + 8) / 8 = k / 8 + 1 by omega,
        List.getElem?_cons_succ, show (k + 8) % 8 = k % 8 by omega]

theorem leNat_append (l r : List Byte) : leNat (l ++ r) = leNat l + 256 ^ l.length * leNat r := by
  induction l with
  | nil => simp [leNat]
  | cons b l ih =>
    rw [List.cons_append, leNat, ih, leNat, List.length_cons, Nat.pow_succ, Nat.mul_add, Nat.add_assoc,
      Nat.mul_comm (256 ^ l.length) 256, Nat.mul_assoc]

/-- Dividing by a power of 256 drops bytes. -/
theorem leNat_drop (l : List Byte) (k : Nat) (h : k ≤ l.length) : leNat l / 256 ^ k = leNat (l.drop k) := by
  have hk : (l.take k).length = k := by simp [h]
  have hlt := leNat_lt (l.take k)
  conv_lhs => rw [← List.take_append_drop k l, leNat_append]
  rw [hk] at hlt ⊢
  rw [Nat.add_comm, Nat.mul_add_div (by positivity), Nat.div_eq_of_lt hlt, Nat.add_zero]

/-- The remainder by a power of 256 keeps the first bytes. -/
theorem leNat_take (l : List Byte) (k : Nat) (h : k ≤ l.length) : leNat l % 256 ^ k = leNat (l.take k) := by
  have hk : (l.take k).length = k := by simp [h]
  have hlt := leNat_lt (l.take k)
  conv_lhs => rw [← List.take_append_drop k l, leNat_append]
  rw [hk] at hlt ⊢
  rw [Nat.add_comm, Nat.mul_add_mod, Nat.mod_eq_of_lt hlt]

/-- A byte-aligned slice of `LE(b)` is `LE` of those bytes (spec/20_memory.md R21). -/
theorem leNat_slice (l : List Byte) {w : Nat} (hw : w = 8 * l.length) (k n : Nat) (h : k + n ≤ l.length) :
    ((BitVec.ofNat w (leNat l)).extractLsb' (8 * k) (8 * n)).toNat = leNat ((l.drop k).take n) := by
  have hlt : leNat l < 2 ^ w := by
    have := leNat_lt l
    rwa [show (256 : Nat) = 2 ^ 8 from rfl, ← Nat.pow_mul, ← hw] at this
  rw [BitVec.extractLsb'_toNat, BitVec.toNat_ofNat, Nat.mod_eq_of_lt hlt, Nat.shiftRight_eq_div_pow,
    Nat.pow_mul, Nat.pow_mul, leNat_drop l k (by omega), leNat_take _ n (by rw [List.length_drop]; omega)]

/-- A request read from its own bytes is the request. -/
@[simp] theorem Request.ofBytes_bytes (r : Request) : Request.ofBytes r.bytes = r := by
  have : r.arg.toNat < 256 ^ 16 := r.arg.isLt
  simp only [Request.bytes, Request.ofBytes, Config.argBytes, leNat_bytesLE, Nat.mod_eq_of_lt this,
    BitVec.ofNat_toNat, BitVec.setWidth_eq]

@[simp] theorem Request.bytes_length (r : Request) : r.bytes.length = 17 := by
  simp [Request.bytes, Config.argBytes]

@[simp] theorem requestWf_bytes (r : Request) : requestWf r.bytes = true := by
  simp [requestWf, Config.requestBytes]

/-- Decoding the bytes of a request decodes the request. -/
@[simp] theorem decode_bytes (r : Request) : decode r.bytes = decodeRequest r := by
  simp [decode]

/-- The opcode table and the codes agree. -/
@[simp] theorem opOf_code (o : Op) : opOf o.code = some o := by
  cases o <;> decide

/-- A code selects an operation only if it is that operation's code. -/
theorem code_of_opOf {b : Byte} {o : Op} (h : opOf b = some o) : b = o.code := by
  have all : ∀ b : Byte, ∀ o, opOf b = some o → b = o.code := by
    have : ∀ b : Byte, (opOf b).all (fun o => b == o.code) = true := by decide +kernel
    intro b o h
    have := this b
    rw [h] at this
    simpa using this
  exact all b o h

/-- The codes of two operations differ: no encodings overlap. -/
theorem code_injective {o p : Op} (h : o.code = p.code) : o = p := by
  have := opOf_code o
  rw [h, opOf_code] at this
  simpa using this.symm

/-- A slice that lies in the low part of a concatenation. -/
theorem extract_append_low {n m : Nat} (a : BitVec n) (b : BitVec m) {k len : Nat} (h : k + len ≤ m) :
    (a ++ b).extractLsb' k len = b.extractLsb' k len := by
  ext i hi
  simp only [BitVec.getElem_extractLsb', BitVec.getLsbD_append]
  rw [if_pos (by omega)]

/-- A slice that lies in the high part of a concatenation. -/
theorem extract_append_high {n m : Nat} (a : BitVec n) (b : BitVec m) {k len : Nat} (h : m ≤ k) :
    (a ++ b).extractLsb' k len = a.extractLsb' (k - m) len := by
  ext i hi
  simp only [BitVec.getElem_extractLsb', BitVec.getLsbD_append]
  rw [if_neg (by omega)]
  congr 1
  omega

/-- A slice that lies inside a zero-extended value. -/
theorem extract_zext {n w : Nat} (a : BitVec n) {k len : Nat} (h : k + len ≤ w) :
    (a.setWidth w).extractLsb' k len = a.extractLsb' k len := by
  ext i hi
  simp only [BitVec.getElem_extractLsb', BitVec.getLsbD_setWidth]
  rw [decide_eq_true (by omega), Bool.true_and]

theorem Bc1Block.ofBits_toBits (b : Bc1Block) : Bc1Block.ofBits b.toBits = b := by
  obtain ⟨c0, c1, ci⟩ := b
  simp only [Bc1Block.ofBits, Bc1Block.toBits, Bc1Block.mk.injEq]
  refine ⟨?_, ?_, ?_⟩
  · change BitVec.extractLsb' (n := 32 + 16 + 16) 0 16 (ci ++ c1 ++ c0) = c0
    rw [extract_append_low _ _ (by omega), BitVec.extractLsb'_eq_self]
  · change BitVec.extractLsb' (n := 32 + 16 + 16) 16 16 (ci ++ c1 ++ c0) = c1
    rw [extract_append_high _ _ (by omega), extract_append_low _ _ (by omega), BitVec.extractLsb'_eq_self]
  · change BitVec.extractLsb' (n := 32 + 16 + 16) 32 32 (ci ++ c1 ++ c0) = ci
    rw [extract_append_high _ _ (by omega), extract_append_high _ _ (by omega), BitVec.extractLsb'_eq_self]

theorem Bc2Block.ofBits_toBits (b : Bc2Block) : Bc2Block.ofBits b.toBits = b := by
  obtain ⟨ab, c0, c1, ci⟩ := b
  simp only [Bc2Block.ofBits, Bc2Block.toBits, Bc2Block.mk.injEq]
  have low : ∀ {k len : Nat}, k + len ≤ 64 →
      BitVec.extractLsb' (n := 128) k len (ci ++ c1 ++ c0 ++ ab) = ab.extractLsb' k len := fun h =>
    extract_append_low (ci ++ c1 ++ c0) ab h
  have high : ∀ {k len : Nat}, 64 ≤ k →
      BitVec.extractLsb' (n := 128) k len (ci ++ c1 ++ c0 ++ ab) =
        BitVec.extractLsb' (n := 32 + 16 + 16) (k - 64) len (ci ++ c1 ++ c0) := fun h =>
    extract_append_high (ci ++ c1 ++ c0) ab h
  refine ⟨?_, ?_, ?_, ?_⟩
  · rw [low (by omega), BitVec.extractLsb'_eq_self]
  · rw [high (by omega), extract_append_low _ _ (by omega), BitVec.extractLsb'_eq_self]
  · rw [high (by omega), extract_append_high _ _ (by omega), extract_append_low _ _ (by omega),
      BitVec.extractLsb'_eq_self]
  · rw [high (by omega), extract_append_high _ _ (by omega), extract_append_high _ _ (by omega),
      BitVec.extractLsb'_eq_self]

theorem Bc3Block.ofBits_toBits (b : Bc3Block) : Bc3Block.ofBits b.toBits = b := by
  obtain ⟨a0, a1, ai, c0, c1, ci⟩ := b
  simp only [Bc3Block.ofBits, Bc3Block.toBits, Bc3Block.mk.injEq]
  have low : ∀ {k len : Nat}, k + len ≤ 8 →
      BitVec.extractLsb' (n := 128) k len (ci ++ c1 ++ c0 ++ ai ++ a1 ++ a0) = a0.extractLsb' k len :=
    fun h => extract_append_low (ci ++ c1 ++ c0 ++ ai ++ a1) a0 h
  have high : ∀ {k len : Nat}, 8 ≤ k →
      BitVec.extractLsb' (n := 128) k len (ci ++ c1 ++ c0 ++ ai ++ a1 ++ a0) =
        BitVec.extractLsb' (n := 32 + 16 + 16 + 48 + 8) (k - 8) len (ci ++ c1 ++ c0 ++ ai ++ a1) :=
    fun h => extract_append_high (ci ++ c1 ++ c0 ++ ai ++ a1) a0 h
  refine ⟨?_, ?_, ?_, ?_, ?_, ?_⟩
  · rw [low (by omega), BitVec.extractLsb'_eq_self]
  · rw [high (by omega), extract_append_low _ _ (by omega), BitVec.extractLsb'_eq_self]
  · rw [high (by omega), extract_append_high _ _ (by omega), extract_append_low _ _ (by omega),
      BitVec.extractLsb'_eq_self]
  · rw [high (by omega), extract_append_high _ _ (by omega), extract_append_high _ _ (by omega),
      extract_append_low _ _ (by omega), BitVec.extractLsb'_eq_self]
  · rw [high (by omega), extract_append_high _ _ (by omega), extract_append_high _ _ (by omega),
      extract_append_high _ _ (by omega), extract_append_low _ _ (by omega), BitVec.extractLsb'_eq_self]
  · rw [high (by omega), extract_append_high _ _ (by omega), extract_append_high _ _ (by omega),
      extract_append_high _ _ (by omega), extract_append_high _ _ (by omega), BitVec.extractLsb'_eq_self]

/-- The inversion of the decoder: what it answers, and when. -/
theorem decodeRequest_ok {r : Request} {i : Instr} (h : decodeRequest r = .ok i) :
    r.op = i.op.code ∧ i = operandFields r.arg i.op := by
  unfold decodeRequest at h
  split at h
  · next o ho =>
    simp only [Except.ok.injEq] at h
    subst h
    have hop : (operandFields r.arg o).op = o := by cases o <;> rfl
    exact ⟨hop.symm ▸ code_of_opOf ho, by rw [hop]⟩
  · simp at h

theorem decodeRequest_error {r : Request} {e : Reject} (h : decodeRequest r = .error e) :
    opOf r.op = none ∧ e = .reservedOp r.op := by
  unfold decodeRequest at h
  split at h
  · simp at h
  · next ho => simp at h; exact ⟨ho, h.symm⟩

end Sys2Proof
end

