-- ==== Sys2Proof/Laws/Memory.lean ====
section
/-! SUPPORT. The laws of the buffers: read after write, the canonical form is kept by every operation, and
equal reads are equal buffers. -/

namespace Sys2Proof.Machine

/-- A cell list is rising. -/
abbrev CellsRising (cs : List Host.Cell) : Prop := cs.Pairwise (fun c d => c.1 < d.1)

theorem cellsGet_below {cs : List Host.Cell} {a : Nat} (h : ∀ c ∈ cs, a < c.1) :
    cellsGet cs a = unlistedByte := by
  induction cs with
  | nil => rfl
  | cons c cs ih =>
    have hc := h c (by simp)
    rw [cellsGet, if_neg (by omega), ih (fun d hd => h d (by simp [hd]))]

theorem cellsGet_put {cs : List Host.Cell} (h : CellsRising cs) (a b : Nat) (v : Byte) :
    cellsGet (cellsPut cs a v) b = if b = a then v else cellsGet cs b := by
  induction cs with
  | nil =>
    by_cases hv : v = unlistedByte <;> by_cases hb : b = a <;> simp [cellsPut, cellsGet, hv, hb]
  | cons c cs ih =>
    obtain ⟨x, w⟩ := c
    obtain ⟨hx, hs⟩ := List.pairwise_cons.1 h
    have below : ∀ y, y ≤ x → cellsGet cs y = unlistedByte := fun y hy =>
      cellsGet_below fun d hd => by have := hx d hd; simp at this; omega
    rw [cellsPut]
    split
    · split
      · by_cases hb : b = a
        · subst hb
          rw [cellsGet, if_neg (by omega), below b (by omega)]
          simp_all
        · simp [hb]
      · by_cases hb : b = a <;> simp [cellsGet, hb]
    · split
      · subst_vars
        split
        · by_cases hb : b = x
          · subst hb; rw [below b (le_refl b)]; simp_all
          · simp [cellsGet, hb]
        · by_cases hb : b = x <;> simp [cellsGet, hb]
      · rw [cellsGet, ih hs]
        by_cases hb : b = x
        · have : b ≠ a := by omega
          simp [cellsGet, hb]
          omega
        · simp [cellsGet, hb]

theorem mem_cellsPut {cs : List Host.Cell} {a : Nat} {v : Byte} {c : Host.Cell}
    (h : c ∈ cellsPut cs a v) : c ∈ cs ∨ (c = (a, v) ∧ v ≠ unlistedByte) := by
  induction cs with
  | nil => rw [cellsPut] at h; split at h <;> simp_all
  | cons d cs ih =>
    obtain ⟨x, w⟩ := d
    rw [cellsPut] at h
    split at h
    · split at h <;> (simp_all; try tauto)
    · split at h
      · split at h <;> (simp_all; try tauto)
      · rcases List.mem_cons.1 h with h | h
        · simp [h]
        · rcases ih h with h | h
          · simp [h]
          · exact .inr h

theorem cellsPut_rising {cs : List Host.Cell} (h : CellsRising cs) (a : Nat) (v : Byte) :
    CellsRising (cellsPut cs a v) := by
  induction cs with
  | nil => rw [cellsPut]; split <;> simp [CellsRising]
  | cons d cs ih =>
    obtain ⟨x, w⟩ := d
    obtain ⟨hx, hs⟩ := List.pairwise_cons.1 h
    rw [cellsPut]
    split
    · split
      · exact h
      · refine List.pairwise_cons.2 ⟨fun c hc => ?_, h⟩
        rcases List.mem_cons.1 hc with rfl | hc
        · simpa
        · have := hx c hc; simp at this ⊢; omega
    · split
      · subst_vars
        split
        · exact hs
        · exact List.pairwise_cons.2 ⟨fun c hc => by simpa using hx c hc, hs⟩
      · refine List.pairwise_cons.2 ⟨fun c hc => ?_, ih hs⟩
        rcases mem_cellsPut hc with hc | ⟨rfl, -⟩
        · exact hx c hc
        · simp; omega

namespace Memory

theorem wf_iff {m : Memory} :
    m.wf = true ↔ CellsRising m.cells ∧ ∀ c ∈ m.cells, c.2 ≠ unlistedByte ∧ c.1 < m.len := by
  simp [Memory.wf, CellsRising]

theorem read_eq_none {m : Memory} {a : Nat} : m.read a = none ↔ m.len ≤ a := by
  simp [Memory.read]

theorem read_isSome {m : Memory} {a : Nat} (h : a < m.len) :
    m.read a = some (cellsGet m.cells a) := by
  simp [Memory.read, h]

theorem write_isSome {m : Memory} {a : Nat} (h : a < m.len) (v : Byte) :
    m.write a v = some { m with cells := cellsPut m.cells a v } := by
  simp [Memory.write, h]

/-- A write succeeds exactly inside the buffer. -/
theorem write_some_iff {m m' : Memory} {a : Nat} {v : Byte} :
    m.write a v = some m' ↔ a < m.len ∧ m' = { m with cells := cellsPut m.cells a v } := by
  unfold Memory.write; split <;> simp_all [eq_comm]

theorem write_len {m m' : Memory} {a : Nat} {v : Byte} (h : m.write a v = some m') : m'.len = m.len := by
  obtain ⟨-, rfl⟩ := write_some_iff.1 h; rfl

/-- What every byte reads as after one byte is written. -/
theorem read_write {m m' : Memory} (hm : m.wf = true) {a : Nat} {v : Byte} (h : m.write a v = some m')
    (b : Nat) : m'.read b = if b = a then some v else m.read b := by
  obtain ⟨ha, rfl⟩ := write_some_iff.1 h
  unfold Memory.read
  by_cases hb : b = a
  · subst hb; simp [ha, cellsGet_put (wf_iff.1 hm).1]
  · simp [hb, cellsGet_put (wf_iff.1 hm).1]

theorem write_wf {m m' : Memory} (hm : m.wf = true) {a : Nat} {v : Byte} (h : m.write a v = some m') :
    m'.wf = true := by
  obtain ⟨ha, rfl⟩ := write_some_iff.1 h
  obtain ⟨hr, hc⟩ := wf_iff.1 hm
  refine wf_iff.2 ⟨cellsPut_rising hr a v, fun c h => ?_⟩
  rcases mem_cellsPut h with h | ⟨rfl, hv⟩
  · exact hc c h
  · exact ⟨hv, ha⟩

/-- A byte sequence is written exactly when it fits, and nothing is written to say otherwise. -/
theorem writeBytes_isSome {m : Memory} {a : Nat} {vs : List Byte} (h : a + vs.length ≤ m.len) :
    ∃ m', m.writeBytes a vs = some m' := by
  induction vs generalizing m a with
  | nil => exact ⟨m, rfl⟩
  | cons v vs ih =>
    simp only [List.length_cons] at h
    rw [Memory.writeBytes, write_isSome (by omega)]
    exact ih (by simp; omega)

theorem writeBytes_len {m m' : Memory} {a : Nat} {vs : List Byte} (h : m.writeBytes a vs = some m') :
    m'.len = m.len := by
  induction vs generalizing m a with
  | nil => simp [Memory.writeBytes] at h; rw [h]
  | cons v vs ih =>
    rw [Memory.writeBytes] at h
    split at h
    · next hw => rw [ih h, write_len hw]
    · simp at h

theorem writeBytes_wf {m m' : Memory} (hm : m.wf = true) {a : Nat} {vs : List Byte}
    (h : m.writeBytes a vs = some m') : m'.wf = true := by
  induction vs generalizing m a with
  | nil => simp [Memory.writeBytes] at h; rw [← h]; exact hm
  | cons v vs ih =>
    rw [Memory.writeBytes] at h
    split at h
    · next hw => exact ih (write_wf hm hw) h
    · simp at h

/-- What every byte reads as after `MemWrite` (spec/20_memory.md R27). -/
theorem read_writeBytes {m m' : Memory} (hm : m.wf = true) {a : Nat} {vs : List Byte}
    (h : m.writeBytes a vs = some m') (b : Nat) :
    m'.read b = if a ≤ b ∧ b < a + vs.length then vs[b - a]? else m.read b := by
  induction vs generalizing m a with
  | nil =>
    simp [Memory.writeBytes] at h
    rw [← h, if_neg (by simp)]
  | cons v vs ih =>
    rw [Memory.writeBytes] at h
    split at h
    · next hw =>
      rw [ih (write_wf hm hw) h, read_write hm hw]
      simp only [List.length_cons]
      rcases Nat.lt_trichotomy b a with hb | rfl | hb
      · rw [if_neg (by omega), if_neg (by omega), if_neg (by omega)]
      · rw [if_neg (by omega), if_pos rfl, if_pos (by omega)]; simp
      · by_cases hlt : b < a + 1 + vs.length
        · rw [if_pos (by omega), if_pos (by omega), show b - a = (b - (a + 1)) + 1 by omega,
            List.getElem?_cons_succ]
        · rw [if_neg (by omega), if_neg (by omega), if_neg (by omega)]
    · simp at h

/-- `MemRead` inside the buffer gives as many bytes as asked for (spec/20_memory.md R26). -/
theorem readBytes_isSome {m : Memory} {a n : Nat} (h : a + n ≤ m.len) :
    ∃ vs, m.readBytes a n = some vs := by
  induction n generalizing a with
  | zero => exact ⟨[], rfl⟩
  | succ n ih =>
    obtain ⟨vs, hvs⟩ := ih (a := a + 1) (by omega)
    exact ⟨_, by rw [Memory.readBytes, read_isSome (by omega), hvs]⟩

/-- The bytes `MemRead` gives are the buffer's, in order. -/
theorem readBytes_spec {m : Memory} {a n : Nat} {vs : List Byte} (h : m.readBytes a n = some vs) :
    vs.length = n ∧ ∀ j, j < n → vs[j]? = m.read (a + j) := by
  induction n generalizing a vs with
  | zero => simp [Memory.readBytes] at h; simp [← h]
  | succ n ih =>
    rw [Memory.readBytes] at h
    split at h
    · next v ws hv hw =>
      simp only [Option.some.injEq] at h
      subst h
      obtain ⟨hl, hj⟩ := ih hw
      refine ⟨by simp [hl], fun j hjn => ?_⟩
      cases j with
      | zero => simp [hv]
      | succ j => rw [List.getElem?_cons_succ, hj j (by omega), show a + 1 + j = a + (j + 1) by omega]
    · simp at h

theorem resize_len (m : Memory) (n : Nat) : (m.resize n).len = n := rfl

theorem resize_wf {m : Memory} (hm : m.wf = true) (n : Nat) : (m.resize n).wf = true := by
  obtain ⟨hr, hc⟩ := wf_iff.1 hm
  refine wf_iff.2 ⟨hr.sublist List.filter_sublist, fun c h => ?_⟩
  simp only [Memory.resize, List.mem_filter, decide_eq_true_eq] at h
  exact ⟨(hc c h.1).1, h.2⟩

/-- Setting the length a buffer has already changes nothing. -/
theorem resize_self {m : Memory} (hm : m.wf = true) : m.resize m.len = m := by
  obtain ⟨-, hc⟩ := wf_iff.1 hm
  have : m.cells.filter (fun c => decide (c.1 < m.len)) = m.cells :=
    List.filter_eq_self.2 fun c h => by simpa using (hc c h).2
  rw [Memory.resize, this]

end Memory

/-- Two rising cell lists without unlisted values that read the same everywhere are equal. -/
theorem cells_ext {cs ds : List Host.Cell} (hc : CellsRising cs) (hd : CellsRising ds)
    (vc : ∀ c ∈ cs, c.2 ≠ unlistedByte) (vd : ∀ d ∈ ds, d.2 ≠ unlistedByte)
    (h : ∀ a, cellsGet cs a = cellsGet ds a) : cs = ds := by
  induction cs generalizing ds with
  | nil =>
    cases ds with
    | nil => rfl
    | cons d ds => have := h d.1; simp [cellsGet] at this; exact absurd this.symm (vd d (by simp))
  | cons c cs ih =>
    obtain ⟨x, v⟩ := c
    cases ds with
    | nil => have := h x; simp [cellsGet] at this; exact absurd this (vc (x, v) (by simp))
    | cons d ds =>
      obtain ⟨y, w⟩ := d
      obtain ⟨hx, hcs⟩ := List.pairwise_cons.1 hc
      obtain ⟨hy, hds⟩ := List.pairwise_cons.1 hd
      have belowC : ∀ a, a ≤ x → cellsGet cs a = unlistedByte := fun a ha =>
        cellsGet_below fun e he => by have := hx e he; simp at this; omega
      have belowD : ∀ a, a ≤ y → cellsGet ds a = unlistedByte := fun a ha =>
        cellsGet_below fun e he => by have := hy e he; simp at this; omega
      have hv : v ≠ unlistedByte := vc (x, v) (by simp)
      have hw : w ≠ unlistedByte := vd (y, w) (by simp)
      have hxy : x = y := by
        rcases Nat.lt_trichotomy x y with hlt | heq | hlt
        · have := h x
          rw [cellsGet, if_pos rfl, cellsGet, if_neg (by omega), belowD x (by omega)] at this
          exact absurd this hv
        · exact heq
        · have := h y
          rw [cellsGet, if_neg (by omega), belowC y (by omega), cellsGet, if_pos rfl] at this
          exact absurd this.symm hw
      subst hxy
      have hvw : v = w := by simpa [cellsGet] using h x
      subst hvw
      congr 1
      refine ih hcs hds (fun c h => vc c (by simp [h])) (fun d h => vd d (by simp [h])) fun a => ?_
      by_cases ha : a = x
      · rw [belowC a (by omega), belowD a (by omega)]
      · simpa [cellsGet, ha] using h a

/-- Equal lengths and equal reads are equal buffers: the canonical form is canonical. -/
theorem Memory.ext_of_read {m n : Memory} (hm : m.wf = true) (hn : n.wf = true) (hl : m.len = n.len)
    (h : ∀ a, m.read a = n.read a) : m = n := by
  obtain ⟨hr, hc⟩ := Memory.wf_iff.1 hm
  obtain ⟨hr', hc'⟩ := Memory.wf_iff.1 hn
  have key : m.cells = n.cells := by
    refine cells_ext hr hr' (fun c h => (hc c h).1) (fun c h => (hc' c h).1) fun a => ?_
    by_cases ha : a < m.len
    · have := h a
      rw [Memory.read_isSome ha, Memory.read_isSome (hl ▸ ha)] at this
      simpa using this
    · have outside : ∀ {cs : List Host.Cell}, (∀ c ∈ cs, c.1 < m.len) → cellsGet cs a = unlistedByte := by
        intro cs hcs
        induction cs with
        | nil => rfl
        | cons d cs ih =>
          have := hcs d (by simp)
          rw [cellsGet, if_neg (by omega), ih fun c h => hcs c (by simp [h])]
      rw [outside fun c h => (hc c h).2, outside fun c h => hl ▸ (hc' c h).2]
  cases m; cases n; simp_all

end Sys2Proof.Machine
end

