-- ==== Sys2Proof/Laws/Results.lean ====
section
/-! SUPPORT. The byte layout of results: lengths, and which bytes belong to which lane or entry. -/

namespace Sys2Proof.Machine

/-- Serialising pieces of one length gives as many bytes as there are pieces times that length. -/
theorem flatMap_length {α : Type} (ser : α → List Byte) (n : Nat) (h : ∀ x, (ser x).length = n) (l : List α) :
    (l.flatMap ser).length = n * l.length := by
  induction l with
  | nil => simp
  | cons x l ih => simp [ih, h, Nat.mul_add, Nat.add_comm]

/-- Piece `i` of a serialisation whose pieces have one length. -/
theorem flatMap_piece {α : Type} (ser : α → List Byte) (n : Nat) (h : ∀ x, (ser x).length = n) (l : List α)
    (i : Nat) (x : α) (hx : l[i]? = some x) : ((l.flatMap ser).drop (n * i)).take n = ser x := by
  induction l generalizing i with
  | nil => simp at hx
  | cons y l ih =>
    cases i with
    | zero =>
      simp only [List.getElem?_cons_zero, Option.some.injEq] at hx
      subst hx
      simp [h]
    | succ i =>
      rw [List.getElem?_cons_succ] at hx
      rw [List.flatMap_cons, show n * (i + 1) = (ser y).length + n * i by rw [h]; ring, List.drop_append,
        List.drop_eq_nil_of_le (by omega), List.nil_append, Nat.add_sub_cancel_left]
      exact ih i hx

@[simp] theorem Rgb.bytes_length (p : Rgb) : p.bytes.length = 3 := rfl
@[simp] theorem Rgba.bytes_length (p : Rgba) : p.bytes.length = 4 := rfl
@[simp] theorem zextByte_length {w : Nat} (v : BitVec w) : (zextByte v).length = 1 := rfl

theorem laneBytes_length {α : Type} (ser : α → List Byte) (n : Nat) (h : ∀ x, (ser x).length = n)
    (f : Lanes α) : (laneBytes ser f).length = n * 16 := by
  rw [laneBytes, flatMap_length ser n h, List.length_ofFn]

/-- The bytes of lane `i`. -/
theorem laneBytes_piece {α : Type} (ser : α → List Byte) (n : Nat) (h : ∀ x, (ser x).length = n)
    (f : Lanes α) (i : Fin 16) : ((laneBytes ser f).drop (n * i.val)).take n = ser (f i) :=
  flatMap_piece ser n h _ i.val (f i) (by
    rw [List.getElem?_eq_getElem (by rw [List.length_ofFn]; exact i.isLt), List.getElem_ofFn])

theorem tableBytes_length {α : Type} {m : Nat} (ser : α → List Byte) (n : Nat) (h : ∀ x, (ser x).length = n)
    (t : Vector α m) : (tableBytes ser t).length = n * m := by
  rw [tableBytes, flatMap_length ser n h, Vector.length_toList]

/-- The bytes of entry `k`. -/
theorem tableBytes_piece {α : Type} {m : Nat} (ser : α → List Byte) (n : Nat) (h : ∀ x, (ser x).length = n)
    (t : Vector α m) (k : Fin m) : ((tableBytes ser t).drop (n * k.val)).take n = ser (t.get k) :=
  flatMap_piece ser n h _ k.val (t.get k) (by simp [Vector.get])

/-- One-byte lanes: the response is the list of the lanes. -/
theorem laneBytes_zext {w : Nat} (f : Lanes (BitVec w)) :
    laneBytes zextByte f = List.ofFn fun i => (f i).setWidth 8 := by
  rw [laneBytes, show (zextByte : BitVec w → List Byte) = fun v => [v.setWidth 8] from rfl,
    ← List.map_eq_flatMap, List.map_ofFn]
  rfl

/-- One-byte entries: the response is the list of the entries. -/
theorem tableBytes_byte {m : Nat} (t : Vector Byte m) : tableBytes zextByte t = t.toList := by
  rw [tableBytes, show (zextByte : Byte → List Byte) = fun v => [v] from
    funext fun v => by rw [zextByte, BitVec.setWidth_eq], List.flatMap_singleton']

end Sys2Proof.Machine
end

