-- ==== Sys2Proof/Laws/State.lean ====
section
/-! SUPPORT. One lemma per field per update of the state, true by unfolding, and the shapes of the
outcomes. -/

namespace Sys2Proof.Machine

section respond
variable (s : State) (r : Response)
@[simp] theorem State.respond_port : (s.respond r).port = ⟨none, some r⟩ := rfl
@[simp] theorem State.respond_others : (s.respond r).others = s.others := rfl
@[simp] theorem State.respond_cbuf : (s.respond r).cbuf = s.cbuf := rfl
@[simp] theorem State.respond_obuf : (s.respond r).obuf = s.obuf := rfl
@[simp] theorem State.respond_bulk : (s.respond r).bulk = s.bulk := rfl
@[simp] theorem State.respond_bulkStatus : (s.respond r).bulkStatus = s.bulkStatus := rfl
end respond

section answer
variable (s : State) (res : List Byte)
@[simp] theorem State.answer_port : (s.answer res).port = ⟨none, some ⟨.ok, res⟩⟩ := rfl
@[simp] theorem State.answer_others : (s.answer res).others = s.others := rfl
@[simp] theorem State.answer_cbuf : (s.answer res).cbuf = s.cbuf := rfl
@[simp] theorem State.answer_obuf : (s.answer res).obuf = s.obuf := rfl
@[simp] theorem State.answer_bulk : (s.answer res).bulk = s.bulk := rfl
@[simp] theorem State.answer_bulkStatus : (s.answer res).bulkStatus = s.bulkStatus := rfl
end answer

section raise
variable (s : State) (e : Status)
@[simp] theorem State.raise_port : (s.raise e).port = ⟨none, some ⟨e, []⟩⟩ := rfl
@[simp] theorem State.raise_others : (s.raise e).others = s.others := rfl
@[simp] theorem State.raise_cbuf : (s.raise e).cbuf = s.cbuf := rfl
@[simp] theorem State.raise_obuf : (s.raise e).obuf = s.obuf := rfl
@[simp] theorem State.raise_bulk : (s.raise e).bulk = s.bulk := rfl
@[simp] theorem State.raise_bulkStatus : (s.raise e).bulkStatus = s.bulkStatus := rfl
end raise

section returnBulk
variable (s : State) (e : Status)
@[simp] theorem State.returnBulk_port : (s.returnBulk e).port = s.port := rfl
@[simp] theorem State.returnBulk_others : (s.returnBulk e).others = s.others := rfl
@[simp] theorem State.returnBulk_cbuf : (s.returnBulk e).cbuf = s.cbuf := rfl
@[simp] theorem State.returnBulk_obuf : (s.returnBulk e).obuf = s.obuf := rfl
@[simp] theorem State.returnBulk_bulk : (s.returnBulk e).bulk = none := rfl
@[simp] theorem State.returnBulk_bulkStatus : (s.returnBulk e).bulkStatus = some e := rfl
end returnBulk

section placeRequest
variable (s : State) (r : Request)
@[simp] theorem State.placeRequest_port : (s.placeRequest r).port = ⟨some r, s.port.rsp⟩ := rfl
@[simp] theorem State.placeRequest_others : (s.placeRequest r).others = s.others := rfl
@[simp] theorem State.placeRequest_cbuf : (s.placeRequest r).cbuf = s.cbuf := rfl
@[simp] theorem State.placeRequest_obuf : (s.placeRequest r).obuf = s.obuf := rfl
@[simp] theorem State.placeRequest_bulk : (s.placeRequest r).bulk = s.bulk := rfl
@[simp] theorem State.placeRequest_bulkStatus : (s.placeRequest r).bulkStatus = s.bulkStatus := rfl
end placeRequest

section placeBulk
variable (s : State) (c : BulkCall)
@[simp] theorem State.placeBulk_port : (s.placeBulk c).port = s.port := rfl
@[simp] theorem State.placeBulk_others : (s.placeBulk c).others = s.others := rfl
@[simp] theorem State.placeBulk_cbuf : (s.placeBulk c).cbuf = s.cbuf := rfl
@[simp] theorem State.placeBulk_obuf : (s.placeBulk c).obuf = s.obuf := rfl
@[simp] theorem State.placeBulk_bulk : (s.placeBulk c).bulk = some ⟨c, .start⟩ := rfl
@[simp] theorem State.placeBulk_bulkStatus : (s.placeBulk c).bulkStatus = s.bulkStatus := rfl
end placeBulk

section resetDecoder
variable (s : State)
@[simp] theorem State.resetDecoder_port : s.resetDecoder.port = Port.idle := rfl
@[simp] theorem State.resetDecoder_others :
    s.resetDecoder.others = s.others.map (fun _ => Port.idle) := rfl
@[simp] theorem State.resetDecoder_cbuf : s.resetDecoder.cbuf = s.cbuf := rfl
@[simp] theorem State.resetDecoder_obuf : s.resetDecoder.obuf = s.obuf := rfl
@[simp] theorem State.resetDecoder_bulk : s.resetDecoder.bulk = s.bulk := rfl
@[simp] theorem State.resetDecoder_bulkStatus : s.resetDecoder.bulkStatus = s.bulkStatus := rfl
end resetDecoder

section passTurn
variable (s : State)

@[simp] theorem State.passTurn_cbuf : s.passTurn.cbuf = s.cbuf := by
  unfold State.passTurn; split <;> rfl

@[simp] theorem State.passTurn_obuf : s.passTurn.obuf = s.obuf := by
  unfold State.passTurn; split <;> rfl

@[simp] theorem State.passTurn_bulk : s.passTurn.bulk = s.bulk := by
  unfold State.passTurn; split <;> rfl

@[simp] theorem State.passTurn_bulkStatus : s.passTurn.bulkStatus = s.bulkStatus := by
  unfold State.passTurn; split <;> rfl

/-- Passing the turn moves the first instance behind the others and changes none. -/
@[simp] theorem State.passTurn_ports : s.passTurn.ports = s.others ++ [s.port] := by
  unfold State.passTurn State.ports; split <;> simp_all

/-- With one instance, passing the turn changes nothing. -/
theorem State.passTurn_alone (h : s.others = []) : s.passTurn = s := by
  unfold State.passTurn; rw [h]

@[simp] theorem State.passTurn_numInstances : s.passTurn.numInstances = s.numInstances := by
  unfold State.passTurn State.numInstances; split <;> simp_all

end passTurn

section continueBulk
variable (s : State) (c : BulkCall) (k : BlockKind) (todo : List BlockPos)

@[simp] theorem State.continueBulk_port : (s.continueBulk c k todo).port = s.port := by
  unfold State.continueBulk; split <;> rfl

@[simp] theorem State.continueBulk_others : (s.continueBulk c k todo).others = s.others := by
  unfold State.continueBulk; split <;> rfl

@[simp] theorem State.continueBulk_cbuf : (s.continueBulk c k todo).cbuf = s.cbuf := by
  unfold State.continueBulk; split <;> rfl

@[simp] theorem State.continueBulk_obuf : (s.continueBulk c k todo).obuf = s.obuf := by
  unfold State.continueBulk; split <;> rfl

end continueBulk

/-- A step that answers a next state made a move that did, and passed the turn. -/
theorem thenPassTurn_next {o : StepOutcome} {t : State} :
    thenPassTurn o = .next t ↔ ∃ u, o = .next u ∧ t = u.passTurn := by
  cases o <;> simp [thenPassTurn, eq_comm]

@[simp] theorem thenPassTurn_fault {o : StepOutcome} {f : Fault} :
    thenPassTurn o = .fault f ↔ o = .fault f := by
  cases o <;> simp [thenPassTurn]

@[simp] theorem thenPassTurn_refused {o : StepOutcome} {r : Refusal} :
    thenPassTurn o = .refused r ↔ o = .refused r := by
  cases o <;> simp [thenPassTurn]

end Sys2Proof.Machine
end

