-- ==== Sys2Proof/Laws/Bulk.lean ====
section
/-! SUPPORT. The bulk driver: where pixels lie, what writing many pieces does, and what one move does. -/

namespace Sys2Proof.Machine

/-! ## Where pixels lie (spec/45_bulk_driver.md R125) -/

/-- The number of a texel's pixel in the image, row-major. -/
abbrev pixelNumber (c : BulkCall) (p : BlockPos) (i : Fin 16) : Nat :=
  (p.br * 4 + i.val / 4) * c.width + (p.bc * 4 + i.val % 4)

theorem texelOffset_eq (k : BlockKind) (c : BulkCall) (p : BlockPos) (i : Fin 16) :
    texelOffset k c p i = pixelNumber c p i * bytesPerPixel k := rfl

theorem bytesPerPixel_pos (k : BlockKind) : 0 < bytesPerPixel k := by cases k <;> decide

theorem inGrid_iff {c : BulkCall} {p : BlockPos} :
    p.inGrid c = true ↔ p.br < c.height / 4 ∧ p.bc < c.width / 4 := by
  rw [BlockPos.inGrid, Bool.and_eq_true, decide_eq_true_eq, decide_eq_true_eq]
  rfl

theorem mem_blockGrid {c : BulkCall} {p : BlockPos} : p ∈ blockGrid c ↔ p.inGrid c = true := by
  obtain ⟨br, bc⟩ := p
  simp [blockGrid, inGrid_iff, blockRows, blocksPerRow]

theorem blockGrid_length (c : BulkCall) : (blockGrid c).length = blocksPerRow c * blockRows c := by
  simp [blockGrid, List.length_flatMap, Nat.mul_comm]

/-- Row and column of a pixel number. -/
theorem pixelNumber_split {c : BulkCall} {p : BlockPos} (h : p.inGrid c = true) (i : Fin 16) :
    pixelNumber c p i / c.width = p.br * 4 + i.val / 4 ∧ pixelNumber c p i % c.width = p.bc * 4 + i.val % 4 := by
  obtain ⟨-, hc⟩ := inGrid_iff.1 h
  have hlt : p.bc * 4 + i.val % 4 < c.width := by omega
  constructor
  · rw [pixelNumber, Nat.mul_comm, Nat.mul_add_div (by omega), Nat.div_eq_of_lt hlt, Nat.add_zero]
  · rw [pixelNumber, Nat.mul_comm, Nat.mul_add_mod, Nat.mod_eq_of_lt hlt]

theorem pixelNumber_lt {c : BulkCall} {p : BlockPos} (h : p.inGrid c = true) (i : Fin 16) :
    pixelNumber c p i < c.height * c.width := by
  obtain ⟨hr, hc⟩ := inGrid_iff.1 h
  have h1 : p.br * 4 + i.val / 4 + 1 ≤ c.height := by omega
  have h2 : p.bc * 4 + i.val % 4 < c.width := by omega
  calc pixelNumber c p i < (p.br * 4 + i.val / 4 + 1) * c.width := by rw [pixelNumber, Nat.succ_mul]; omega
    _ ≤ _ := Nat.mul_le_mul_right _ h1

/-- Distinct texels have distinct pixels. -/
theorem pixelNumber_injective {c : BulkCall} {p q : BlockPos} (hp : p.inGrid c = true)
    (hq : q.inGrid c = true) {i j : Fin 16} (h : pixelNumber c p i = pixelNumber c q j) : p = q ∧ i = j := by
  obtain ⟨pr, pc⟩ := pixelNumber_split hp i
  obtain ⟨qr, qc⟩ := pixelNumber_split hq j
  rw [h] at pr pc
  have hi := i.isLt
  have hj := j.isLt
  obtain ⟨a, b⟩ := p
  obtain ⟨a', b'⟩ := q
  simp only at pr pc qr qc
  refine ⟨?_, Fin.ext ?_⟩
  · rw [BlockPos.mk.injEq]; omega
  · omega

/-- Equal byte offsets are the same byte of the same pixel. -/
theorem offset_split {n x y j j' : Nat} (hj : j < n) (hj' : j' < n) (h : x * n + j = y * n + j') :
    x = y ∧ j = j' := by
  have hx : (x * n + j) / n = x := by
    rw [Nat.mul_comm, Nat.mul_add_div (by omega), Nat.div_eq_of_lt hj, Nat.add_zero]
  have hy : (y * n + j') / n = y := by
    rw [Nat.mul_comm, Nat.mul_add_div (by omega), Nat.div_eq_of_lt hj', Nat.add_zero]
  have hxy : x = y := by rw [← hx, ← hy, h]
  subst hxy
  exact ⟨rfl, by omega⟩

/-- Bytes of distinct texels of the grid lie at distinct offsets. -/
theorem texelByte_injective {k : BlockKind} {c : BulkCall} {p q : BlockPos} (hp : p.inGrid c = true)
    (hq : q.inGrid c = true) {i i' : Fin 16} {j j' : Nat} (hj : j < bytesPerPixel k)
    (hj' : j' < bytesPerPixel k) (h : texelOffset k c p i + j = texelOffset k c q i' + j') :
    p = q ∧ i = i' ∧ j = j' := by
  obtain ⟨hpix, rfl⟩ := offset_split hj hj' h
  obtain ⟨hpq, hi⟩ := pixelNumber_injective hp hq hpix
  exact ⟨hpq, hi, rfl⟩

/-- A texel of the grid lies inside the output buffer. -/
theorem texelOffset_le {k : BlockKind} {c : BulkCall} {p : BlockPos} (h : p.inGrid c = true) (i : Fin 16) :
    texelOffset k c p i + bytesPerPixel k ≤ outputBytes k c := by
  have := Nat.mul_le_mul_right (bytesPerPixel k) (pixelNumber_lt h i)
  rw [Nat.succ_mul] at this
  rw [outputBytes, stride, ← Nat.mul_assoc]
  exact this

/-- A block of the grid lies inside a compressed buffer of the required length (spec/20_memory.md R26). -/
theorem blockOffset_le {k : BlockKind} {c : BulkCall} {p : BlockPos} (h : p.inGrid c = true) :
    blockOffset k c p + blockByteSize k ≤ requiredBytes k c := by
  obtain ⟨hr, hc⟩ := inGrid_iff.1 h
  have h1 : p.br * blocksPerRow c + p.bc + 1 ≤ blocksPerRow c * blockRows c := by
    have := Nat.mul_le_mul_right (blocksPerRow c) (show p.br + 1 ≤ blockRows c from hr)
    rw [Nat.succ_mul, Nat.mul_comm (blockRows c)] at this
    have : p.bc < blocksPerRow c := hc
    omega
  have := Nat.mul_le_mul_right (blockByteSize k) h1
  rw [Nat.succ_mul] at this
  exact this

/-- Every pixel of a block has the bytes of the kind's pixel format. -/
theorem blockTexels_length (k : BlockKind) (block : List Byte) (i : Fin 16) :
    (blockTexels k block i).length = bytesPerPixel k := by
  cases k <;> rfl

/-! ## Writing many pieces of one length -/

/-- Writing pieces of `n` bytes that fit: the buffer keeps its length and form, and a byte no piece covers
stays. -/
theorem writeAll_frame {ι : Type} (n : Nat) (off : ι → Nat) (piece : ι → List Byte)
    (hlen : ∀ i, (piece i).length = n) (is : List ι) {m : Memory} (hm : m.wf = true)
    (hin : ∀ i ∈ is, off i + n ≤ m.len) :
    ∃ m', is.foldlM (fun m i => m.writeBytes (off i) (piece i)) m = some m' ∧ m'.len = m.len ∧ m'.wf = true ∧
      ∀ a, (∀ i ∈ is, ¬ (off i ≤ a ∧ a < off i + n)) → m'.read a = m.read a := by
  induction is generalizing m with
  | nil => exact ⟨m, rfl, rfl, hm, fun _ _ => rfl⟩
  | cons i is ih =>
    obtain ⟨m1, h1⟩ := Memory.writeBytes_isSome (m := m) (a := off i) (vs := piece i)
      (by rw [hlen]; exact hin i (by simp))
    have l1 := Memory.writeBytes_len h1
    obtain ⟨m', h', l', w', f'⟩ := ih (Memory.writeBytes_wf hm h1) fun j hj => by
      rw [l1]; exact hin j (by simp [hj])
    refine ⟨m', by rw [List.foldlM_cons, h1]; exact h', l'.trans l1, w', fun a ha => ?_⟩
    rw [f' a fun j hj => ha j (by simp [hj]), Memory.read_writeBytes hm h1, hlen,
      if_neg (ha i (by simp))]

/-- If the pieces do not overlap, each lies in the buffer afterwards. -/
theorem writeAll_read {ι : Type} (n : Nat) (off : ι → Nat) (piece : ι → List Byte)
    (hlen : ∀ i, (piece i).length = n)
    (hdis : ∀ i i' j j', j < n → j' < n → off i + j = off i' + j' → i = i') (is : List ι) {m m' : Memory}
    (hm : m.wf = true) (hin : ∀ i ∈ is, off i + n ≤ m.len)
    (h : is.foldlM (fun m i => m.writeBytes (off i) (piece i)) m = some m') :
    ∀ i ∈ is, ∀ j < n, m'.read (off i + j) = (piece i)[j]? := by
  induction is generalizing m with
  | nil => simp
  | cons i is ih =>
    obtain ⟨m1, h1⟩ := Memory.writeBytes_isSome (m := m) (a := off i) (vs := piece i)
      (by rw [hlen]; exact hin i (by simp))
    have l1 := Memory.writeBytes_len h1
    have w1 := Memory.writeBytes_wf hm h1
    have in1 : ∀ x ∈ is, off x + n ≤ m1.len := fun x hx => by rw [l1]; exact hin x (by simp [hx])
    rw [List.foldlM_cons, h1] at h
    change is.foldlM (fun m i => m.writeBytes (off i) (piece i)) m1 = some m' at h
    intro x hx j hj
    by_cases hmem : x ∈ is
    · exact ih w1 in1 h x hmem j hj
    · obtain rfl : x = i := by simpa [hmem] using hx
      obtain ⟨m2, h2, -, -, f2⟩ := writeAll_frame n off piece hlen is w1 in1
      obtain rfl : m2 = m' := by rw [h2] at h; exact Option.some.inj h
      rw [f2 _ fun y hy hc => hmem (by
          rw [hdis x y j (off x + j - off y) hj (by omega) (by omega)]; exact hy),
        Memory.read_writeBytes hm h1, hlen, if_pos (by omega), Nat.add_sub_cancel_left]

/-! ## One move -/

/-- Writing the tile of a block of the grid succeeds; its texels lie where R125 says and every other byte
is as before. -/
theorem writeTile_spec {k : BlockKind} {c : BulkCall} {p : BlockPos} (hp : p.inGrid c = true)
    (block : List Byte) {m : Memory} (hm : m.wf = true) (hlen : m.len = outputBytes k c) :
    ∃ m', writeTile k c p (blockTexels k block) m = some m' ∧ m'.len = m.len ∧ m'.wf = true ∧
      (∀ a, (∀ i : Fin 16, ¬ (texelOffset k c p i ≤ a ∧ a < texelOffset k c p i + bytesPerPixel k)) →
        m'.read a = m.read a) ∧
      ∀ (i : Fin 16) (j : Nat), j < bytesPerPixel k →
        m'.read (texelOffset k c p i + j) = (blockTexels k block i)[j]? := by
  have hin : ∀ i ∈ List.finRange 16, texelOffset k c p i + bytesPerPixel k ≤ m.len := fun i _ =>
    hlen ▸ texelOffset_le hp i
  obtain ⟨m', h', l', w', f'⟩ := writeAll_frame (bytesPerPixel k) (texelOffset k c p) (blockTexels k block)
    (blockTexels_length k block) (List.finRange 16) hm hin
  refine ⟨m', h', l', w', fun a ha => f' a fun i _ => ha i, fun i j hj => ?_⟩
  exact writeAll_read (bytesPerPixel k) (texelOffset k c p) (blockTexels k block)
    (blockTexels_length k block)
    (fun i i' j j' hj hj' h => (texelByte_injective hp hp hj hj' h).2.1) (List.finRange 16) hm hin h' i
    (List.mem_finRange i) j hj

/-- What the invariant says of a call in its block phase. -/
theorem inv_blocks {s : State} {c : BulkCall} {k : BlockKind} {todo : List BlockPos} (hi : s.inv = true)
    (hb : s.bulk = some ⟨c, .blocks k todo⟩) :
    c.wf = true ∧ kindOf c = some k ∧ requiredBytes k c ≤ s.cbuf.len ∧ s.obuf.len = outputBytes k c ∧
      ∀ p ∈ todo, p.inGrid c = true := by
  simp only [State.inv, hb, BulkRun.wf, Bool.and_eq_true, beq_iff_eq, decide_eq_true_eq, List.all_eq_true] at hi
  obtain ⟨-, ⟨⟨⟨h1, h2⟩, h3⟩, h4⟩, h5⟩ := hi
  exact ⟨h1, h2, h3, h4, h5⟩

theorem inv_cbuf {s : State} (hi : s.inv = true) : s.cbuf.wf = true := by
  simp only [State.inv, Bool.and_eq_true] at hi; exact hi.1.1.1

theorem inv_obuf {s : State} (hi : s.inv = true) : s.obuf.wf = true := by
  simp only [State.inv, Bool.and_eq_true] at hi; exact hi.1.1.2

theorem inv_ports {s : State} (hi : s.inv = true) : s.ports.all Port.wf = true := by
  simp only [State.inv, Bool.and_eq_true] at hi; exact hi.1.2

/-- The move for a block, from a state that meets the invariant: it reads the block, writes its tile and
goes on with the rest. -/
theorem bulkBlock_spec {s : State} {c : BulkCall} {k : BlockKind} {p : BlockPos} {rest : List BlockPos}
    (hi : s.inv = true) (hb : s.bulk = some ⟨c, .blocks k (p :: rest)⟩) :
    ∃ block m, s.cbuf.readBytes (blockOffset k c p) (blockByteSize k) = some block ∧
      writeTile k c p (blockTexels k block) s.obuf = some m ∧
      bulkMove ⟨c, .blocks k (p :: rest)⟩ s = .next ({ s with obuf := m }.continueBulk c k rest) ∧
      m.len = s.obuf.len ∧ m.wf = true ∧
      (∀ a, (∀ i : Fin 16, ¬ (texelOffset k c p i ≤ a ∧ a < texelOffset k c p i + bytesPerPixel k)) →
        m.read a = s.obuf.read a) ∧
      ∀ (i : Fin 16) (j : Nat), j < bytesPerPixel k →
        m.read (texelOffset k c p i + j) = (blockTexels k block i)[j]? := by
  obtain ⟨-, -, hc, ho, hg⟩ := inv_blocks hi hb
  have hp := hg p (by simp)
  obtain ⟨block, hblock⟩ := Memory.readBytes_isSome (m := s.cbuf) (a := blockOffset k c p)
    (n := blockByteSize k) (le_trans (blockOffset_le hp) hc)
  obtain ⟨m, hm, hl, hw, hf, hr⟩ := writeTile_spec hp block (inv_obuf hi) ho
  exact ⟨block, m, hblock, hm, by simp only [bulkMove, bulkBlock, hblock, hm], hl, hw, hf, hr⟩

/-- Everything a move of the driver that answers a next state can be. -/
theorem bulkMove_cases {run : BulkRun} {s t : State} (h : bulkMove run s = .next t) :
    (∃ k, run.phase = .start ∧ run.call.wf = true ∧ kindOf run.call = some k ∧
      t = { s with bulk := some ⟨run.call, .formatChecked k⟩ }) ∨
    (run.phase = .start ∧ run.call.wf = true ∧ kindOf run.call = none ∧
      t = s.returnBulk .unsupportedFormat) ∨
    (∃ k, run.phase = .formatChecked k ∧ s.cbuf.len < requiredBytes k run.call ∧
      t = s.returnBulk .truncatedInput) ∨
    (∃ k, run.phase = .formatChecked k ∧ requiredBytes k run.call ≤ s.cbuf.len ∧
      t = { s with obuf := s.obuf.resize (outputBytes k run.call) }.continueBulk run.call k
        (blockGrid run.call)) ∨
    (∃ k, run.phase = .blocks k [] ∧ t = s.returnBulk .ok) ∨
    (∃ k p rest block m, run.phase = .blocks k (p :: rest) ∧
      s.cbuf.readBytes (blockOffset k run.call p) (blockByteSize k) = some block ∧
      writeTile k run.call p (blockTexels k block) s.obuf = some m ∧
      t = { s with obuf := m }.continueBulk run.call k rest) := by
  obtain ⟨c, phase⟩ := run
  cases phase with
  | start =>
    simp only [bulkMove, bulkCheckFormat] at h
    split at h
    · next hw =>
      split at h
      · next k hk => exact .inl ⟨k, rfl, hw, hk, (Host.Outcome.next.inj h).symm⟩
      · next hk => exact .inr (.inl ⟨rfl, hw, hk, (Host.Outcome.next.inj h).symm⟩)
    · simp at h
  | formatChecked k =>
    simp only [bulkMove, bulkCheckLength] at h
    split at h
    · next hl => exact .inr (.inr (.inl ⟨k, rfl, hl, (Host.Outcome.next.inj h).symm⟩))
    · next hl =>
      exact .inr (.inr (.inr (.inl ⟨k, rfl, by simpa using hl, (Host.Outcome.next.inj h).symm⟩)))
  | blocks k todo =>
    cases todo with
    | nil => exact .inr (.inr (.inr (.inr (.inl ⟨k, rfl, (Host.Outcome.next.inj h).symm⟩))))
    | cons p rest =>
      simp only [bulkMove, bulkBlock] at h
      split at h
      · simp at h
      · next block hb =>
        split at h
        · simp at h
        · next m hm =>
          exact .inr (.inr (.inr (.inr (.inr
            ⟨k, p, rest, block, m, rfl, hb, hm, (Host.Outcome.next.inj h).symm⟩))))

end Sys2Proof.Machine
end

