-- ==== Sys2Proof/Laws/PerInstr.lean ====
section
/-! SUPPORT. The family of statements made per operation: the form of an operation's request. -/

namespace Sys2Proof.Laws.Encoding

/-- The request of an operation is seventeen bytes whose first is the operation's code
(spec/30_encoding.md R50, R51). -/
def Statement (i : Instr) : Prop := (encode i).length = 17 ∧ (encode i).head? = some i.op.code

theorem of_request (i : Instr) : Statement i := ⟨Request.bytes_length i.request, rfl⟩

theorem decBc1 (block : Bc1Block) : Statement (.decBc1 block) := of_request _
theorem decBc2 (block : Bc2Block) : Statement (.decBc2 block) := of_request _
theorem decBc3 (block : Bc3Block) : Statement (.decBc3 block) := of_request _
theorem decBc1a (block : Bc1Block) : Statement (.decBc1a block) := of_request _
theorem expand5 (n : BitVec 5) : Statement (.expand5 n) := of_request _
theorem expand6 (n : BitVec 6) : Statement (.expand6 n) := of_request _
theorem reduce5 (n8 : Byte) : Statement (.reduce5 n8) := of_request _
theorem reduce6 (n8 : Byte) : Statement (.reduce6 n8) := of_request _
theorem unpack565 (c : PackedColor16) : Statement (.unpack565 c) := of_request _
theorem mix (v0 v1 : Byte) (w0 w1 : BitVec 3) : Statement (.mix v0 v1 w0 w1) := of_request _
theorem pal4 (color0 color1 : PackedColor16) : Statement (.pal4 color0 color1) := of_request _
theorem palBc1 (color0 color1 : PackedColor16) : Statement (.palBc1 color0 color1) := of_request _
theorem idx2 (ci : BitVec 32) : Statement (.idx2 ci) := of_request _
theorem idx3 (ai : BitVec 48) : Statement (.idx3 ai) := of_request _
theorem alpha4 (ab : BitVec 64) : Statement (.alpha4 ab) := of_request _
theorem ramp8 (a0 a1 : Byte) : Statement (.ramp8 a0 a1) := of_request _

end Sys2Proof.Laws.Encoding
end

