-- ==== Sys2Proof/Laws/Step.lean ====
section
/-! SUPPORT. What serving a request, a move and a step can do, said once. -/

namespace Sys2Proof.Machine

/-- Executing any instruction gives one response of the request port and changes nothing else. -/
theorem exec_spec (i : Instr) : ∃ rsp : Response, rsp.wf = true ∧ ∀ s, exec i s = .next (s.respond rsp) := by
  have ok : ∀ res : List Byte, [1, 3, 8, 16, 48, 64].contains res.length = true →
      Response.wf ⟨.ok, res⟩ = true := fun _ h => h
  cases i with
  | mix v0 v1 w0 w1 =>
    by_cases h : weightsZero w0 w1 = true
    · exact ⟨⟨.unsupportedFormat, []⟩, rfl, fun s => by simp [exec, execMix, h, State.raise]⟩
    · exact ⟨⟨.ok, _⟩, ok _ rfl, fun s => by simp only [exec, execMix, h]; rfl⟩
  | decBc1 b =>
    exact ⟨⟨.ok, _⟩, ok _ (by rw [laneBytes_length Rgb.bytes 3 Rgb.bytes_length]; rfl), fun s => rfl⟩
  | decBc2 b =>
    exact ⟨⟨.ok, _⟩, ok _ (by rw [laneBytes_length Rgba.bytes 4 Rgba.bytes_length]; rfl), fun s => rfl⟩
  | decBc3 b =>
    exact ⟨⟨.ok, _⟩, ok _ (by rw [laneBytes_length Rgba.bytes 4 Rgba.bytes_length]; rfl), fun s => rfl⟩
  | decBc1a b =>
    exact ⟨⟨.ok, _⟩, ok _ (by rw [laneBytes_length Rgba.bytes 4 Rgba.bytes_length]; rfl), fun s => rfl⟩
  | pal4 c0 c1 =>
    exact ⟨⟨.ok, _⟩, ok _ (by rw [tableBytes_length Rgba.bytes 4 Rgba.bytes_length]; rfl), fun s => rfl⟩
  | palBc1 c0 c1 =>
    exact ⟨⟨.ok, _⟩, ok _ (by rw [tableBytes_length Rgba.bytes 4 Rgba.bytes_length]; rfl), fun s => rfl⟩
  | idx2 ci =>
    exact ⟨⟨.ok, _⟩, ok _ (by rw [laneBytes_length zextByte 1 zextByte_length]; rfl), fun s => rfl⟩
  | idx3 ai =>
    exact ⟨⟨.ok, _⟩, ok _ (by rw [laneBytes_length zextByte 1 zextByte_length]; rfl), fun s => rfl⟩
  | alpha4 ab =>
    exact ⟨⟨.ok, _⟩, ok _ (by rw [laneBytes_length zextByte 1 zextByte_length]; rfl), fun s => rfl⟩
  | ramp8 a0 a1 =>
    exact ⟨⟨.ok, _⟩, ok _ (by rw [tableBytes_length zextByte 1 zextByte_length]; rfl), fun s => rfl⟩
  | expand5 n => exact ⟨⟨.ok, _⟩, ok _ rfl, fun s => rfl⟩
  | expand6 n => exact ⟨⟨.ok, _⟩, ok _ rfl, fun s => rfl⟩
  | reduce5 n => exact ⟨⟨.ok, _⟩, ok _ rfl, fun s => rfl⟩
  | reduce6 n => exact ⟨⟨.ok, _⟩, ok _ rfl, fun s => rfl⟩
  | unpack565 c => exact ⟨⟨.ok, _⟩, ok _ rfl, fun s => rfl⟩

/-- Serving any request gives one response of the request port and changes nothing else. -/
theorem serve_spec (r : Request) : ∃ rsp : Response, rsp.wf = true ∧ ∀ s, serve r s = .next (s.respond rsp) := by
  cases h : decodeRequest r with
  | ok i =>
    obtain ⟨rsp, hw, he⟩ := exec_spec i
    exact ⟨rsp, hw, fun s => by simp only [serve, h, he]⟩
  | error e => exact ⟨⟨.unsupportedFormat, []⟩, rfl, fun s => by simp only [serve, h]; rfl⟩

/-- Everything a step that answers a next state can be: a request served, a move of the bulk driver, or
waiting; then the turn passes. -/
theorem step_cases {s t : State} (h : step s = .next t) :
    (∃ r rsp, s.port.req = some r ∧ rsp.wf = true ∧ t = (s.respond rsp).passTurn) ∨
    (∃ run u, s.port.req = none ∧ s.bulk = some run ∧ bulkMove run s = .next u ∧ t = u.passTurn) ∨
    (s.port.req = none ∧ s.bulk = none ∧ t = s.passTurn) := by
  obtain ⟨u, hu, rfl⟩ := thenPassTurn_next.1 h
  unfold move at hu
  split at hu
  · next r hr =>
    obtain ⟨rsp, hw, he⟩ := serve_spec r
    rw [he, Host.Outcome.next.injEq] at hu
    exact .inl ⟨r, rsp, hr, hw, by rw [hu]⟩
  · next hr =>
    split at hu
    · next run hb => exact .inr (.inl ⟨run, u, hr, hb, hu, rfl⟩)
    · next hb =>
      rw [Host.Outcome.next.injEq] at hu
      exact .inr (.inr ⟨hr, hb, by rw [hu]⟩)

/-- A step with a request pending serves it. -/
theorem step_of_request {s : State} {r : Request} (h : s.port.req = some r) :
    step s = thenPassTurn (serve r s) := by
  unfold step move; rw [h]

/-- A step with no request pending and a bulk call in progress moves the driver. -/
theorem step_of_bulk {s : State} {run : BulkRun} (h : s.port.req = none) (hb : s.bulk = some run) :
    step s = thenPassTurn (bulkMove run s) := by
  unfold step move; rw [h, hb]

end Sys2Proof.Machine
end

