-- ==== Sys2Proof/Laws/Units.lean ====
section
/-! SUPPORT. One spec lemma per function of the units: its value as a natural number, with no width lost. -/

namespace Sys2Proof.Machine

/-! ## Packed fields -/

theorem toNat_red5 (c : PackedColor16) : (red5 c).toNat = c.toNat / 2048 := by
  have := c.isLt
  simp [red5, BitVec.extractLsb'_toNat, Nat.shiftRight_eq_div_pow]
  omega

theorem toNat_green6 (c : PackedColor16) : (green6 c).toNat = c.toNat / 32 % 64 := by
  simp [green6, BitVec.extractLsb'_toNat, Nat.shiftRight_eq_div_pow]

theorem toNat_blue5 (c : PackedColor16) : (blue5 c).toNat = c.toNat % 32 := by
  simp [blue5, BitVec.extractLsb'_toNat]

theorem toNat_colorIndex (ci : BitVec 32) (i : Fin 16) :
    (colorIndex ci i).toNat = ci.toNat / 2 ^ (2 * i.val) % 4 := by
  simp [colorIndex, BitVec.extractLsb'_toNat, Nat.shiftRight_eq_div_pow]

theorem toNat_alphaNibble (ab : BitVec 64) (i : Fin 16) :
    (alphaNibble ab i).toNat = ab.toNat / 2 ^ (4 * i.val) % 16 := by
  simp [alphaNibble, BitVec.extractLsb'_toNat, Nat.shiftRight_eq_div_pow]

theorem toNat_alphaIndex (ai : BitVec 48) (i : Fin 16) :
    (alphaIndex ai i).toNat = ai.toNat / 2 ^ (3 * i.val) % 8 := by
  simp [alphaIndex, BitVec.extractLsb'_toNat, Nat.shiftRight_eq_div_pow]

/-! ## Depth conversion -/

theorem toNat_expand5 (n : BitVec 5) : (expand5 n).toNat = (n.toNat * 510 + 31) / 62 := by
  have := n.isLt
  have h : expand 5 n.toNat = (n.toNat * 510 + 31) / 62 := by simp [expand, Nat.mul_assoc]
  rw [expand5, BitVec.toNat_ofNat, h, Nat.mod_eq_of_lt (by omega)]

theorem toNat_expand6 (n : BitVec 6) : (expand6 n).toNat = (n.toNat * 510 + 63) / 126 := by
  have := n.isLt
  have h : expand 6 n.toNat = (n.toNat * 510 + 63) / 126 := by simp [expand, Nat.mul_assoc]
  rw [expand6, BitVec.toNat_ofNat, h, Nat.mod_eq_of_lt (by omega)]

theorem toNat_reduce5 (n : Byte) : (reduce5 n).toNat = (n.toNat * 62 + 255) / 510 := by
  have := n.isLt
  have h : reduce 5 n.toNat = (n.toNat * 62 + 255) / 510 := by simp [reduce, Nat.mul_assoc]
  rw [reduce5, BitVec.toNat_ofNat, h, Nat.mod_eq_of_lt (by omega)]

theorem toNat_reduce6 (n : Byte) : (reduce6 n).toNat = (n.toNat * 126 + 255) / 510 := by
  have := n.isLt
  have h : reduce 6 n.toNat = (n.toNat * 126 + 255) / 510 := by simp [reduce, Nat.mul_assoc]
  rw [reduce6, BitVec.toNat_ofNat, h, Nat.mod_eq_of_lt (by omega)]

/-! ## The weighted mix -/

/-- A weighted mean of two values lies between them. -/
theorem mean_between {w0 w1 x y : Nat} (h : 0 < w0 + w1) :
    min x y ≤ (w0 * x + w1 * y) / (w0 + w1) ∧ (w0 * x + w1 * y) / (w0 + w1) ≤ max x y := by
  constructor
  · rw [Nat.le_div_iff_mul_le h, Nat.mul_add, Nat.mul_comm _ w0, Nat.mul_comm _ w1]
    exact Nat.add_le_add (Nat.mul_le_mul_left _ (Nat.min_le_left _ _)) (Nat.mul_le_mul_left _ (Nat.min_le_right _ _))
  · rw [← Nat.lt_succ_iff, Nat.div_lt_iff_lt_mul h, Nat.succ_mul, Nat.mul_add, Nat.mul_comm _ w0,
      Nat.mul_comm _ w1]
    have := Nat.mul_le_mul_left w0 (Nat.le_max_left x y)
    have := Nat.mul_le_mul_left w1 (Nat.le_max_right x y)
    omega

/-- No width is lost in a mix (spec/46_common_laws.md R170). -/
theorem toNat_mix {w0 w1 : Nat} (h : 0 < w0 + w1) (v0 v1 : Byte) :
    (mix w0 v0 w1 v1).toNat = (w0 * v0.toNat + w1 * v1.toNat) / (w0 + w1) := by
  have := (mean_between (x := v0.toNat) (y := v1.toNat) h).2
  have := v0.isLt
  have := v1.isLt
  rw [mix, BitVec.toNat_ofNat, Nat.mod_eq_of_lt (by omega)]

/-! ## Alpha and lookup -/

theorem toNat_alpha4 (ab : BitVec 64) (i : Fin 16) :
    (alpha4 ab i).toNat = ab.toNat / 2 ^ (4 * i.val) % 16 * 255 / 15 := by
  have := (alphaNibble ab i).isLt
  rw [alpha4, BitVec.toNat_ofNat, ← toNat_alphaNibble, Nat.mod_eq_of_lt (by omega)]

/-- The entry an index selects is the entry with the index's number. -/
theorem lookup_eq_get {α : Type} {w : Nat} (t : Vector α (2 ^ w)) (ix : BitVec w) (k : Fin (2 ^ w))
    (h : k.val = ix.toNat) : lookup t ix = t.get k := by
  have : ix.toFin = k := Fin.ext h.symm
  rw [lookup, this]

theorem colorGreater_iff {c0 c1 : PackedColor16} : colorGreater c0 c1 = true ↔ c0.toNat > c1.toNat := by
  simp [colorGreater]

theorem alphaGreater_iff {a0 a1 : Byte} : alphaGreater a0 a1 = true ↔ a0.toNat > a1.toNat := by
  simp [alphaGreater]

theorem weightsZero_iff {w0 w1 : BitVec 3} : weightsZero w0 w1 = true ↔ w0.toNat + w1.toNat = 0 := by
  simp [weightsZero]

end Sys2Proof.Machine
end

