-- ==== Sys2Proof/Tests/Slice0.lean ====
section
/-! SUPPORT. The author's tests. Expected values come from spec/95_test_vectors.md and the rules cited; the
witnesses show that the hypotheses of the statements can be met. -/

namespace Sys2Proof.Tests

open Sys2Proof.Machine Sys2Proof.Claims

/-! ## Ill-formed terms, one for each check of WellFormed.lean -/

/-- Sixteen bytes are no request (spec/30_encoding.md R50). -/
theorem test_wf_refuses_short_request : requestWf (List.replicate 16 0) = false := by decide

/-- Eighteen bytes are no request (R50). -/
theorem test_wf_refuses_long_request : requestWf (List.replicate 18 0) = false := by decide

/-- MIX with both weights zero is the operand-level reserved case (R52). -/
theorem test_wf_refuses_zero_weights : (Instr.mix 0x12 0x34 0 0).wf = false := by decide

/-- Width 6 is no multiple of 4 (spec/95_test_vectors.md P8). -/
theorem test_wf_refuses_width_6 : (BulkCall.mk 1 false 6 4).wf = false := by decide

/-- Height 6 is no multiple of 4 (spec/45_bulk_driver.md R129). -/
theorem test_wf_refuses_height_6 : (BulkCall.mk 1 false 4 6).wf = false := by decide

/-! ## Decoding of requests written out from spec/30_encoding.md R41 to R43, R50, R51, R53 -/

/-- R41; block B1. -/
theorem test_decode_decBc1 :
    decode [0x01, 0xCD, 0xAB, 0x34, 0x12, 0x78, 0x56, 0x34, 0x12, 0x00, 0x00, 0x00, 0x00, 0x00, 0x00, 0x00, 0x00] =
      .ok (.decBc1 ⟨0xABCD, 0x1234, 0x12345678⟩) := by decide

/-- R42; block B9. -/
theorem test_decode_decBc2 :
    decode [0x02, 0xEF, 0xCD, 0xAB, 0x89, 0x67, 0x45, 0x23, 0x01, 0x1F, 0x00, 0x00, 0xF8, 0x1B, 0x1B, 0xE4, 0xE4] =
      .ok (.decBc2 ⟨0x0123456789ABCDEF, 0x001F, 0xF800, 0xE4E41B1B⟩) := by decide

/-- R43; block B14. -/
theorem test_decode_decBc3 :
    decode [0x03, 0xC8, 0x64, 0xBC, 0x9A, 0x78, 0x56, 0x34, 0x12, 0x34, 0x12, 0xCD, 0xAB, 0xFF, 0x00, 0x55, 0xAA] =
      .ok (.decBc3 ⟨200, 100, 0x123456789ABC, 0x1234, 0xABCD, 0xAA5500FF⟩) := by decide

/-- R41; arg[8..15] is ignored. -/
theorem test_decode_decBc1a :
    decode [0x05, 0xCD, 0xAB, 0x34, 0x12, 0x78, 0x56, 0x34, 0x12, 0xFF, 0xFF, 0xFF, 0xFF, 0xFF, 0xFF, 0xFF, 0xFF] =
      .ok (.decBc1a ⟨0xABCD, 0x1234, 0x12345678⟩) := by decide

/-- arg[0][4:0]; the upper bits are ignored. -/
theorem test_decode_expand5 :
    decode [0x10, 0xE3, 0xAA, 0x00, 0x00, 0x00, 0x00, 0x00, 0x00, 0x00, 0x00, 0x00, 0x00, 0x00, 0x00, 0x00, 0x00] =
      .ok (.expand5 3) := by decide

/-- arg[0][5:0]. -/
theorem test_decode_expand6 :
    decode [0x11, 0xCB, 0xAA, 0x00, 0x00, 0x00, 0x00, 0x00, 0x00, 0x00, 0x00, 0x00, 0x00, 0x00, 0x00, 0x00, 0x00] =
      .ok (.expand6 0x0B) := by decide

/-- arg[0]. -/
theorem test_decode_reduce5 :
    decode [0x12, 0xFB, 0xAA, 0x00, 0x00, 0x00, 0x00, 0x00, 0x00, 0x00, 0x00, 0x00, 0x00, 0x00, 0x00, 0x00, 0x00] =
      .ok (.reduce5 0xFB) := by decide

/-- arg[0]. -/
theorem test_decode_reduce6 :
    decode [0x13, 0xFD, 0xAA, 0x00, 0x00, 0x00, 0x00, 0x00, 0x00, 0x00, 0x00, 0x00, 0x00, 0x00, 0x00, 0x00, 0x00] =
      .ok (.reduce6 0xFD) := by decide

/-- LE(arg[0..1]). -/
theorem test_decode_unpack565 :
    decode [0x14, 0x34, 0x12, 0xAA, 0x00, 0x00, 0x00, 0x00, 0x00, 0x00, 0x00, 0x00, 0x00, 0x00, 0x00, 0x00, 0x00] =
      .ok (.unpack565 0x1234) := by decide

/-- v0, v1, arg[2][2:0], arg[3][2:0]. -/
theorem test_decode_mix :
    decode [0x20, 0x12, 0x34, 0xFA, 0x09, 0xFF, 0x00, 0x00, 0x00, 0x00, 0x00, 0x00, 0x00, 0x00, 0x00, 0x00, 0x00] =
      .ok (.mix 0x12 0x34 2 1) := by decide

/-- LE(arg[0..1]), LE(arg[2..3]). -/
theorem test_decode_pal4 :
    decode [0x21, 0x34, 0x12, 0xCD, 0xAB, 0xFF, 0x00, 0x00, 0x00, 0x00, 0x00, 0x00, 0x00, 0x00, 0x00, 0x00, 0x00] =
      .ok (.pal4 0x1234 0xABCD) := by decide

/-- LE(arg[0..1]), LE(arg[2..3]). -/
theorem test_decode_palBc1 :
    decode [0x22, 0x34, 0x12, 0xCD, 0xAB, 0xFF, 0x00, 0x00, 0x00, 0x00, 0x00, 0x00, 0x00, 0x00, 0x00, 0x00, 0x00] =
      .ok (.palBc1 0x1234 0xABCD) := by decide

/-- LE(arg[0..3]). -/
theorem test_decode_idx2 :
    decode [0x30, 0x78, 0x56, 0x34, 0x12, 0xFF, 0x00, 0x00, 0x00, 0x00, 0x00, 0x00, 0x00, 0x00, 0x00, 0x00, 0x00] =
      .ok (.idx2 0x12345678) := by decide

/-- LE(arg[0..5]). -/
theorem test_decode_idx3 :
    decode [0x31, 0xBC, 0x9A, 0x78, 0x56, 0x34, 0x12, 0xFF, 0x00, 0x00, 0x00, 0x00, 0x00, 0x00, 0x00, 0x00, 0x00] =
      .ok (.idx3 0x123456789ABC) := by decide

/-- LE(arg[0..7]). -/
theorem test_decode_alpha4 :
    decode [0x40, 0xEF, 0xCD, 0xAB, 0x89, 0x67, 0x45, 0x23, 0x01, 0xFF, 0x00, 0x00, 0x00, 0x00, 0x00, 0x00, 0x00] =
      .ok (.alpha4 0x0123456789ABCDEF) := by decide

/-- arg[0], arg[1]. -/
theorem test_decode_ramp8 :
    decode [0x41, 0xC8, 0x64, 0xFF, 0x00, 0x00, 0x00, 0x00, 0x00, 0x00, 0x00, 0x00, 0x00, 0x00, 0x00, 0x00, 0x00] =
      .ok (.ramp8 200 100) := by decide

/-- Section 7 of spec/95_test_vectors.md: these codes are reserved (R52). -/
theorem test_decode_refuses_reserved :
    [0x00, 0x04, 0x06, 0x07, 0x15, 0x23, 0x32, 0x42, 0x80, 0xFF].all
      (fun c => decode (c :: List.replicate 16 0) == .error (.reservedOp c)) = true := by decide

/-- A table word gives the row's eight bits and zero operand bits; `0x20` is MIX (R51). -/
theorem test_table_word : decodeTableWord 8 0x20 = some (.mix 0 0 0 0) := by decide

/-! ## Results, each of one step from reset with one request presented (spec/95_test_vectors.md) -/

/-- The response of the step that serves a request. -/
def reply (bytes : List Byte) : Option Response :=
  match step (State.reset.placeRequest (Request.ofBytes bytes)) with
  | .next t => t.port.rsp
  | .fault _ => none
  | .refused _ => none

/-- B1. -/
theorem test_decBc1_four_colors :
    reply [0x01, 0xCD, 0xAB, 0x34, 0x12, 0x78, 0x56, 0x34, 0x12, 0x00, 0x00, 0x00, 0x00, 0x00, 0x00, 0x00, 0x00] =
      some ⟨.ok, [0xAD, 0x79, 0x6B, 0x78, 0x67, 0x7E, 0x44, 0x56, 0x91, 0x10, 0x45, 0xA5, 0x78, 0x67, 0x7E, 0x10,
       0x45, 0xA5, 0x10, 0x45, 0xA5, 0x10, 0x45, 0xA5, 0xAD, 0x79, 0x6B, 0x10, 0x45, 0xA5, 0x44, 0x56,
       0x91, 0xAD, 0x79, 0x6B, 0x78, 0x67, 0x7E, 0xAD, 0x79, 0x6B, 0x10, 0x45, 0xA5, 0xAD, 0x79, 0x6B]⟩ := by decide

/-- B2. -/
theorem test_decBc1_three_colors :
    reply [0x01, 0x34, 0x12, 0xCD, 0xAB, 0x78, 0x56, 0x34, 0x12, 0x00, 0x00, 0x00, 0x00, 0x00, 0x00, 0x00, 0x00] =
      some ⟨.ok, [0x10, 0x45, 0xA5, 0x5E, 0x5F, 0x88, 0x00, 0x00, 0x00, 0xAD, 0x79, 0x6B, 0x5E, 0x5F, 0x88, 0xAD,
       0x79, 0x6B, 0xAD, 0x79, 0x6B, 0xAD, 0x79, 0x6B, 0x10, 0x45, 0xA5, 0xAD, 0x79, 0x6B, 0x00, 0x00,
       0x00, 0x10, 0x45, 0xA5, 0x5E, 0x5F, 0x88, 0x10, 0x45, 0xA5, 0xAD, 0x79, 0x6B, 0x10, 0x45, 0xA5]⟩ := by decide

/-- B8. -/
theorem test_decBc2_never_compares :
    reply [0x02, 0x10, 0x32, 0x54, 0x76, 0x98, 0xBA, 0xDC, 0xFE, 0x00, 0x00, 0xFF, 0xFF, 0xE4, 0xE4, 0xE4, 0xE4] =
      some ⟨.ok, [0x00, 0x00, 0x00, 0x00, 0xFF, 0xFF, 0xFF, 0x11, 0x55, 0x55, 0x55, 0x22, 0xAA, 0xAA, 0xAA, 0x33,
       0x00, 0x00, 0x00, 0x44, 0xFF, 0xFF, 0xFF, 0x55, 0x55, 0x55, 0x55, 0x66, 0xAA, 0xAA, 0xAA, 0x77,
       0x00, 0x00, 0x00, 0x88, 0xFF, 0xFF, 0xFF, 0x99, 0x55, 0x55, 0x55, 0xAA, 0xAA, 0xAA, 0xAA, 0xBB,
       0x00, 0x00, 0x00, 0xCC, 0xFF, 0xFF, 0xFF, 0xDD, 0x55, 0x55, 0x55, 0xEE, 0xAA, 0xAA, 0xAA, 0xFF]⟩ := by decide

/-- B9. -/
theorem test_decBc2_alpha_order :
    reply [0x02, 0xEF, 0xCD, 0xAB, 0x89, 0x67, 0x45, 0x23, 0x01, 0x1F, 0x00, 0x00, 0xF8, 0x1B, 0x1B, 0xE4, 0xE4] =
      some ⟨.ok, [0xAA, 0x00, 0x55, 0xFF, 0x55, 0x00, 0xAA, 0xEE, 0xFF, 0x00, 0x00, 0xDD, 0x00, 0x00, 0xFF, 0xCC,
       0xAA, 0x00, 0x55, 0xBB, 0x55, 0x00, 0xAA, 0xAA, 0xFF, 0x00, 0x00, 0x99, 0x00, 0x00, 0xFF, 0x88,
       0x00, 0x00, 0xFF, 0x77, 0xFF, 0x00, 0x00, 0x66, 0x55, 0x00, 0xAA, 0x55, 0xAA, 0x00, 0x55, 0x44,
       0x00, 0x00, 0xFF, 0x33, 0xFF, 0x00, 0x00, 0x22, 0x55, 0x00, 0xAA, 0x11, 0xAA, 0x00, 0x55, 0x00]⟩ := by decide

/-- B12. -/
theorem test_decBc3_four_step :
    reply [0x03, 0x00, 0xFF, 0x88, 0xC6, 0xFA, 0x77, 0x39, 0x05, 0x00, 0x00, 0xFF, 0xFF, 0xE4, 0xE4, 0xE4, 0xE4] =
      some ⟨.ok, [0x00, 0x00, 0x00, 0x00, 0xFF, 0xFF, 0xFF, 0xFF, 0x55, 0x55, 0x55, 0x33, 0xAA, 0xAA, 0xAA, 0x66,
       0x00, 0x00, 0x00, 0x99, 0xFF, 0xFF, 0xFF, 0xCC, 0x55, 0x55, 0x55, 0x00, 0xAA, 0xAA, 0xAA, 0xFF,
       0x00, 0x00, 0x00, 0xFF, 0xFF, 0xFF, 0xFF, 0x00, 0x55, 0x55, 0x55, 0xCC, 0xAA, 0xAA, 0xAA, 0x99,
       0x00, 0x00, 0x00, 0x66, 0xFF, 0xFF, 0xFF, 0x33, 0x55, 0x55, 0x55, 0xFF, 0xAA, 0xAA, 0xAA, 0x00]⟩ := by decide

/-- B14. -/
theorem test_decBc3_six_step :
    reply [0x03, 0xC8, 0x64, 0xBC, 0x9A, 0x78, 0x56, 0x34, 0x12, 0x34, 0x12, 0xCD, 0xAB, 0xFF, 0x00, 0x55, 0xAA] =
      some ⟨.ok, [0x78, 0x67, 0x7E, 0x9D, 0x78, 0x67, 0x7E, 0x72, 0x78, 0x67, 0x7E, 0xB9, 0x78, 0x67, 0x7E, 0x8E,
       0x10, 0x45, 0xA5, 0x64, 0x10, 0x45, 0xA5, 0x64, 0x10, 0x45, 0xA5, 0x80, 0x10, 0x45, 0xA5, 0xAB,
       0xAD, 0x79, 0x6B, 0x80, 0xAD, 0x79, 0x6B, 0xB9, 0xAD, 0x79, 0x6B, 0x64, 0xAD, 0x79, 0x6B, 0xB9,
       0x44, 0x56, 0x91, 0xAB, 0x44, 0x56, 0x91, 0x9D, 0x44, 0x56, 0x91, 0x9D, 0x44, 0x56, 0x91, 0xC8]⟩ := by decide

/-- B1. -/
theorem test_decBc1a_four_colors :
    reply [0x05, 0xCD, 0xAB, 0x34, 0x12, 0x78, 0x56, 0x34, 0x12, 0x00, 0x00, 0x00, 0x00, 0x00, 0x00, 0x00, 0x00] =
      some ⟨.ok, [0xAD, 0x79, 0x6B, 0xFF, 0x78, 0x67, 0x7E, 0xFF, 0x44, 0x56, 0x91, 0xFF, 0x10, 0x45, 0xA5, 0xFF,
       0x78, 0x67, 0x7E, 0xFF, 0x10, 0x45, 0xA5, 0xFF, 0x10, 0x45, 0xA5, 0xFF, 0x10, 0x45, 0xA5, 0xFF,
       0xAD, 0x79, 0x6B, 0xFF, 0x10, 0x45, 0xA5, 0xFF, 0x44, 0x56, 0x91, 0xFF, 0xAD, 0x79, 0x6B, 0xFF,
       0x78, 0x67, 0x7E, 0xFF, 0xAD, 0x79, 0x6B, 0xFF, 0x10, 0x45, 0xA5, 0xFF, 0xAD, 0x79, 0x6B, 0xFF]⟩ := by decide

/-- B2. -/
theorem test_decBc1a_three_colors :
    reply [0x05, 0x34, 0x12, 0xCD, 0xAB, 0x78, 0x56, 0x34, 0x12, 0x00, 0x00, 0x00, 0x00, 0x00, 0x00, 0x00, 0x00] =
      some ⟨.ok, [0x10, 0x45, 0xA5, 0xFF, 0x5E, 0x5F, 0x88, 0xFF, 0x00, 0x00, 0x00, 0x00, 0xAD, 0x79, 0x6B, 0xFF,
       0x5E, 0x5F, 0x88, 0xFF, 0xAD, 0x79, 0x6B, 0xFF, 0xAD, 0x79, 0x6B, 0xFF, 0xAD, 0x79, 0x6B, 0xFF,
       0x10, 0x45, 0xA5, 0xFF, 0xAD, 0x79, 0x6B, 0xFF, 0x00, 0x00, 0x00, 0x00, 0x10, 0x45, 0xA5, 0xFF,
       0x5E, 0x5F, 0x88, 0xFF, 0x10, 0x45, 0xA5, 0xFF, 0xAD, 0x79, 0x6B, 0xFF, 0x10, 0x45, 0xA5, 0xFF]⟩ := by decide

/-- section 2. -/
theorem test_expand5_is_no_replication :
    reply [0x10, 0x03, 0x00, 0x00, 0x00, 0x00, 0x00, 0x00, 0x00, 0x00, 0x00, 0x00, 0x00, 0x00, 0x00, 0x00, 0x00] =
      some ⟨.ok, [0x19]⟩ := by decide

/-- section 2. -/
theorem test_expand5_ignores_upper_bits :
    reply [0x10, 0xFF, 0x00, 0x00, 0x00, 0x00, 0x00, 0x00, 0x00, 0x00, 0x00, 0x00, 0x00, 0x00, 0x00, 0x00, 0x00] =
      some ⟨.ok, [0xFF]⟩ := by decide

/-- section 2. -/
theorem test_expand6_is_no_replication :
    reply [0x11, 0x0B, 0x00, 0x00, 0x00, 0x00, 0x00, 0x00, 0x00, 0x00, 0x00, 0x00, 0x00, 0x00, 0x00, 0x00, 0x00] =
      some ⟨.ok, [0x2D]⟩ := by decide

/-- section 2. -/
theorem test_expand6_ignores_upper_bits :
    reply [0x11, 0xFF, 0x00, 0x00, 0x00, 0x00, 0x00, 0x00, 0x00, 0x00, 0x00, 0x00, 0x00, 0x00, 0x00, 0x00, 0x00] =
      some ⟨.ok, [0xFF]⟩ := by decide

/-- section 2. -/
theorem test_reduce5_below_31 :
    reply [0x12, 0xFA, 0x00, 0x00, 0x00, 0x00, 0x00, 0x00, 0x00, 0x00, 0x00, 0x00, 0x00, 0x00, 0x00, 0x00, 0x00] =
      some ⟨.ok, [0x1E]⟩ := by decide

/-- section 2. -/
theorem test_reduce5_first_31 :
    reply [0x12, 0xFB, 0x00, 0x00, 0x00, 0x00, 0x00, 0x00, 0x00, 0x00, 0x00, 0x00, 0x00, 0x00, 0x00, 0x00, 0x00] =
      some ⟨.ok, [0x1F]⟩ := by decide

/-- section 2. -/
theorem test_reduce6_below_63 :
    reply [0x13, 0xFC, 0x00, 0x00, 0x00, 0x00, 0x00, 0x00, 0x00, 0x00, 0x00, 0x00, 0x00, 0x00, 0x00, 0x00, 0x00] =
      some ⟨.ok, [0x3E]⟩ := by decide

/-- section 2. -/
theorem test_reduce6_first_63 :
    reply [0x13, 0xFD, 0x00, 0x00, 0x00, 0x00, 0x00, 0x00, 0x00, 0x00, 0x00, 0x00, 0x00, 0x00, 0x00, 0x00, 0x00] =
      some ⟨.ok, [0x3F]⟩ := by decide

/-- section 2. -/
theorem test_unpack565_fields :
    reply [0x14, 0x34, 0x12, 0x00, 0x00, 0x00, 0x00, 0x00, 0x00, 0x00, 0x00, 0x00, 0x00, 0x00, 0x00, 0x00, 0x00] =
      some ⟨.ok, [0x10, 0x45, 0xA5]⟩ := by decide

/-- section 2. -/
theorem test_unpack565_byte_order :
    reply [0x14, 0xF8, 0x00, 0x00, 0x00, 0x00, 0x00, 0x00, 0x00, 0x00, 0x00, 0x00, 0x00, 0x00, 0x00, 0x00, 0x00] =
      some ⟨.ok, [0x00, 0x1C, 0xC5]⟩ := by decide

/-- section 3. -/
theorem test_mix_ignores_upper_weight_bits :
    reply [0x20, 0x12, 0x34, 0xFA, 0x09, 0x00, 0x00, 0x00, 0x00, 0x00, 0x00, 0x00, 0x00, 0x00, 0x00, 0x00, 0x00] =
      some ⟨.ok, [0x1D]⟩ := by decide

/-- section 3. -/
theorem test_mix_zero_weights :
    reply [0x20, 0x12, 0x34, 0x08, 0x10, 0x00, 0x00, 0x00, 0x00, 0x00, 0x00, 0x00, 0x00, 0x00, 0x00, 0x00, 0x00] =
      some ⟨.unsupportedFormat, []⟩ := by decide

/-- section 4. -/
theorem test_pal4_never_compares :
    reply [0x21, 0x34, 0x12, 0xCD, 0xAB, 0x00, 0x00, 0x00, 0x00, 0x00, 0x00, 0x00, 0x00, 0x00, 0x00, 0x00, 0x00] =
      some ⟨.ok, [0x10, 0x45, 0xA5, 0xFF, 0xAD, 0x79, 0x6B, 0xFF, 0x44, 0x56, 0x91, 0xFF, 0x78, 0x67, 0x7E, 0xFF]⟩ := by decide

/-- section 4. -/
theorem test_pal4_truncates :
    reply [0x21, 0x01, 0x00, 0x00, 0x00, 0x00, 0x00, 0x00, 0x00, 0x00, 0x00, 0x00, 0x00, 0x00, 0x00, 0x00, 0x00] =
      some ⟨.ok, [0x00, 0x00, 0x08, 0xFF, 0x00, 0x00, 0x00, 0xFF, 0x00, 0x00, 0x05, 0xFF, 0x00, 0x00, 0x02, 0xFF]⟩ := by decide

/-- section 4. -/
theorem test_palBc1_equal :
    reply [0x22, 0x10, 0x84, 0x10, 0x84, 0x00, 0x00, 0x00, 0x00, 0x00, 0x00, 0x00, 0x00, 0x00, 0x00, 0x00, 0x00] =
      some ⟨.ok, [0x84, 0x82, 0x84, 0xFF, 0x84, 0x82, 0x84, 0xFF, 0x84, 0x82, 0x84, 0xFF, 0x00, 0x00, 0x00, 0x00]⟩ := by decide

/-- section 4. -/
theorem test_palBc1_compares_raw :
    reply [0x22, 0x20, 0x00, 0x1F, 0x00, 0x00, 0x00, 0x00, 0x00, 0x00, 0x00, 0x00, 0x00, 0x00, 0x00, 0x00, 0x00] =
      some ⟨.ok, [0x00, 0x04, 0x00, 0xFF, 0x00, 0x00, 0xFF, 0xFF, 0x00, 0x02, 0x55, 0xFF, 0x00, 0x01, 0xAA, 0xFF]⟩ := by decide

/-- section 5. -/
theorem test_idx2_lanes :
    reply [0x30, 0x78, 0x56, 0x34, 0x12, 0x00, 0x00, 0x00, 0x00, 0x00, 0x00, 0x00, 0x00, 0x00, 0x00, 0x00, 0x00] =
      some ⟨.ok, [0x00, 0x02, 0x03, 0x01, 0x02, 0x01, 0x01, 0x01, 0x00, 0x01, 0x03, 0x00, 0x02, 0x00, 0x01, 0x00]⟩ := by decide

/-- section 5. -/
theorem test_idx2_last_lane :
    reply [0x30, 0x00, 0x00, 0x00, 0xC0, 0x00, 0x00, 0x00, 0x00, 0x00, 0x00, 0x00, 0x00, 0x00, 0x00, 0x00, 0x00] =
      some ⟨.ok, [0x00, 0x00, 0x00, 0x00, 0x00, 0x00, 0x00, 0x00, 0x00, 0x00, 0x00, 0x00, 0x00, 0x00, 0x00, 0x03]⟩ := by decide

/-- section 5. -/
theorem test_idx3_lanes :
    reply [0x31, 0xBC, 0x9A, 0x78, 0x56, 0x34, 0x12, 0x00, 0x00, 0x00, 0x00, 0x00, 0x00, 0x00, 0x00, 0x00, 0x00] =
      some ⟨.ok, [0x04, 0x07, 0x02, 0x05, 0x01, 0x01, 0x06, 0x03, 0x06, 0x02, 0x01, 0x02, 0x03, 0x04, 0x04, 0x00]⟩ := by decide

/-- section 5. -/
theorem test_idx3_spans_bytes :
    reply [0x31, 0x00, 0x80, 0x03, 0x00, 0x00, 0x00, 0x00, 0x00, 0x00, 0x00, 0x00, 0x00, 0x00, 0x00, 0x00, 0x00] =
      some ⟨.ok, [0x00, 0x00, 0x00, 0x00, 0x00, 0x07, 0x00, 0x00, 0x00, 0x00, 0x00, 0x00, 0x00, 0x00, 0x00, 0x00]⟩ := by decide

/-- section 5. -/
theorem test_alpha4_lanes :
    reply [0x40, 0xEF, 0xCD, 0xAB, 0x89, 0x67, 0x45, 0x23, 0x01, 0x00, 0x00, 0x00, 0x00, 0x00, 0x00, 0x00, 0x00] =
      some ⟨.ok, [0xFF, 0xEE, 0xDD, 0xCC, 0xBB, 0xAA, 0x99, 0x88, 0x77, 0x66, 0x55, 0x44, 0x33, 0x22, 0x11, 0x00]⟩ := by decide

/-- section 5. -/
theorem test_alpha4_last_lane :
    reply [0x40, 0x00, 0x00, 0x00, 0x00, 0x00, 0x00, 0x00, 0xF0, 0x00, 0x00, 0x00, 0x00, 0x00, 0x00, 0x00, 0x00] =
      some ⟨.ok, [0x00, 0x00, 0x00, 0x00, 0x00, 0x00, 0x00, 0x00, 0x00, 0x00, 0x00, 0x00, 0x00, 0x00, 0x00, 0xFF]⟩ := by decide

/-- section 5. -/
theorem test_ramp8_six_step :
    reply [0x41, 0xC8, 0x64, 0x00, 0x00, 0x00, 0x00, 0x00, 0x00, 0x00, 0x00, 0x00, 0x00, 0x00, 0x00, 0x00, 0x00] =
      some ⟨.ok, [0xC8, 0x64, 0xB9, 0xAB, 0x9D, 0x8E, 0x80, 0x72]⟩ := by decide

/-- section 5. -/
theorem test_ramp8_equal :
    reply [0x41, 0x80, 0x80, 0x00, 0x00, 0x00, 0x00, 0x00, 0x00, 0x00, 0x00, 0x00, 0x00, 0x00, 0x00, 0x00, 0x00] =
      some ⟨.ok, [0x80, 0x80, 0x80, 0x80, 0x80, 0x80, 0x00, 0xFF]⟩ := by decide

/-- Section 7: code 06 is no "BC2 with alpha" (R52). -/
theorem test_reserved_code : reply [0x06, 0x10, 0x32, 0x54, 0x76, 0x98, 0xBA, 0xDC, 0xFE, 0, 0, 0xFF, 0xFF, 0xE4,
    0xE4, 0xE4, 0xE4] = some ⟨.unsupportedFormat, []⟩ := by decide

/-- The status numbers of spec/60_exceptions.md R142. -/
theorem test_status_codes :
    [Status.ok.code, Status.unsupportedFormat.code, Status.truncatedInput.code] = [0, 1, 2] := by decide

/-- The first step after a table word is presented serves it: `0x41` is RAMP8 of 0 and 0 (section 5). -/
theorem test_withFetchWord :
    (match step (State.reset.withFetchWord 8 0x41) with
      | .next t => t.port.rsp
      | _ => none) = some ⟨.ok, [0, 0, 0, 0, 0, 0, 0, 255]⟩ := by decide

/-! ## The bulk driver, one move each -/

/-- The cells of a byte sequence that starts at an offset. -/
def cellsOf : Nat → List Byte → List Host.Cell
  | _, [] => []
  | a, b :: bs => if b = 0 then cellsOf (a + 1) bs else (a, b) :: cellsOf (a + 1) bs

/-- A buffer with these bytes. -/
def bufferOf (bs : List Byte) : Memory := ⟨bs.length, cellsOf 0 bs⟩

/-- A bulk call at a phase, over these compressed bytes, OBUF having the given length, `5A` in its byte 0. -/
def bulkState (c : BulkCall) (phase : BulkPhase) (compressed : List Byte) (n : Nat) : State :=
  { State.reset with cbuf := bufferOf compressed, obuf := ⟨n, if n = 0 then [] else [(0, 0x5A)]⟩, bulk := some ⟨c, phase⟩ }

/-- The compressed buffer of program P1. -/
def p1Bytes : List Byte := [0xFF, 0xFF, 0, 0, 0, 0, 0, 0, 0, 0, 0xFF, 0xFF, 0xE4, 0xE4, 0xE4, 0xE4]

/-- The call of program P1. -/
def p1Call : BulkCall := ⟨1, false, 8, 4⟩

/-- The call of P8 whose image is one block. -/
def oneBlockCall : BulkCall := ⟨1, false, 4, 4⟩

/-- Program P1 before its second block, the only one left. -/
def p1LastBlock : State := bulkState p1Call (.blocks .bc1 [⟨0, 1⟩]) p1Bytes 96

/-- Program P1 with both blocks to do. -/
def p1Blocks : State := bulkState p1Call (.blocks .bc1 [⟨0, 0⟩, ⟨0, 1⟩]) p1Bytes 96

/-- Two decoder units, the first holding RAMP8 FF 00. -/
def twoUnits : State :=
  { State.reset with port := ⟨some ⟨0x41, 0xFF⟩, none⟩, others := [⟨none, some ⟨.ok, [5]⟩⟩] }

/-- P1: block (1,0) fills the right half of each row, here row 0, and leaves the left half; the call returns
`OK`. -/
theorem test_bulk_block :
    (match step p1LastBlock with
      | .next t => (t.obuf.readBytes 0 24, t.bulk, t.bulkStatus)
      | _ => (none, none, none)) =
    (some [0x5A, 0, 0, 0, 0, 0, 0, 0, 0, 0, 0, 0,
      0, 0, 0, 0xFF, 0xFF, 0xFF, 0x7F, 0x7F, 0x7F, 0, 0, 0], none, some .ok) := by decide

/-- P4: one byte too few returns `TruncatedInput` and leaves OBUF. -/
theorem test_bulk_truncated :
    (match step (bulkState ⟨3, true, 8, 8⟩ (.formatChecked .bc3) (List.replicate 63 1) 4) with
      | .next t => (t.obuf.readBytes 0 4, t.bulk, t.bulkStatus)
      | _ => (none, none, none)) =
    (some [0x5A, 0, 0, 0], none, some .truncatedInput) := by decide

/-- P5: format 4 with an empty buffer returns `UnsupportedFormat`. -/
theorem test_bulk_unsupported :
    (match step (bulkState ⟨4, true, 8, 8⟩ .start [] 4) with
      | .next t => (t.obuf.readBytes 0 4, t.bulk, t.bulkStatus)
      | _ => (none, none, none)) =
    (some [0x5A, 0, 0, 0], none, some .unsupportedFormat) := by decide

/-- P8: an image of no blocks returns `OK` with an empty output buffer. -/
theorem test_bulk_no_blocks :
    (match step (bulkState ⟨2, true, 4, 0⟩ (.formatChecked .bc2) [1, 2] 4) with
      | .next t => (some t.obuf.len, t.bulk, t.bulkStatus)
      | _ => (none, none, none)) = (some 0, none, some .ok) := by decide

/-- P8: width 6 is refused (R129). -/
theorem test_bulk_refused :
    step (bulkState ⟨1, false, 6, 4⟩ .start p1Bytes 0) = .refused (.bulkSize 6 4) := by rfl

/-! ## Witnesses: the hypotheses of the statements can be met -/

theorem test_witness_OpcodeSelectsByExactValue :
    (0x01, Op.decBc1) ∈ codeTable ∧ (0x41, Op.ramp8) ∈ codeTable ∧
    ∀ op ∈ [0x00, 0x04, 0x06, 0x0F, 0x15, 0x1F, 0x23, 0x2F, 0x32, 0x3F, 0x42, 0xFF],
      op ∉ codeTable.map (·.1) := by decide

theorem test_witness_IgnoredOperandBitsChangeNothing :
    (0x1F : BitVec 128) &&& readMask .expand5 = 0xFF &&& readMask .expand5 ∧
    (0x01023412 : BitVec 128) &&& readMask .mix = 0xF9FA3412 &&& readMask .mix ∧
    (0 : BitVec 128) &&& readMask .decBc1 = 0xFFFFFFFFFFFFFFFF0000000000000000 &&& readMask .decBc1 := by decide

theorem test_witness_OtherLengthsAreRejected :
    (List.replicate 16 (0 : Byte)).length ≠ 17 ∧ (List.replicate 18 (0 : Byte)).length ≠ 17 ∧
    ([] : List Byte).length ≠ 17 := by decide

theorem test_witness_StepRunsTheDecodedInstruction :
    let s := State.reset.placeRequest ⟨0x41, 0xFF⟩
    s.port.req = some ⟨0x41, 0xFF⟩ ∧ decodeRequest ⟨0x41, 0xFF⟩ = .ok (.ramp8 255 0) ∧ s.others = [] := by decide

theorem test_witness_ReservedRequestsAnswerUnsupportedFormat :
    0x06 ∉ codeTable.map (·.1) ∧ 0x00 ∉ codeTable.map (·.1) ∧ 0xFF ∉ codeTable.map (·.1) := by decide

theorem test_witness_IdleStepOnlyPassesTheTurn :
    State.reset.port.req = none ∧ State.reset.bulk = none ∧ State.reset.others = [] := by decide

theorem test_witness_MixResultAndError :
    (0 : BitVec 3).toNat + (1 : BitVec 3).toNat ≠ 0 ∧ (1 : BitVec 3).toNat + (0 : BitVec 3).toNat ≠ 0 ∧
    (0 : BitVec 3).toNat + (0 : BitVec 3).toNat = 0 := by decide

theorem test_witness_PalBc1Result :
    (0x8411 : PackedColor16).toNat > (0x8410 : PackedColor16).toNat ∧
    (0x8410 : PackedColor16).toNat ≤ (0x8410 : PackedColor16).toNat ∧
    (0x8410 : PackedColor16).toNat ≤ (0x8411 : PackedColor16).toNat := by decide

theorem test_witness_Ramp8Result :
    (0xFF : Byte).toNat > (0xFE : Byte).toNat ∧ (0x80 : Byte).toNat ≤ (0x80 : Byte).toNat ∧
    (0xFE : Byte).toNat ≤ (0xFF : Byte).toNat := by decide

/-- Texels 0 and 15 of block B1 have indices 0 and 0, texel 2 has index 3 (also for DEC_BC2 and DEC_BC3). -/
theorem test_witness_DecBc1aResult :
    (0 : Fin 4).val = (0x12345678 : BitVec 32).toNat / 2 ^ (2 * (0 : Fin 16).val) % 4 ∧
    (0 : Fin 4).val = (0x12345678 : BitVec 32).toNat / 2 ^ (2 * (15 : Fin 16).val) % 4 ∧
    (3 : Fin 4).val = (0x12345678 : BitVec 32).toNat / 2 ^ (2 * (2 : Fin 16).val) % 4 := by decide

theorem test_witness_DecBc2Result :
    (3 : Fin 4).val = (0xE4E41B1B : BitVec 32).toNat / 2 ^ (2 * (0 : Fin 16).val) % 4 ∧
    (3 : Fin 4).val = (0xE4E41B1B : BitVec 32).toNat / 2 ^ (2 * (15 : Fin 16).val) % 4 := by decide

theorem test_witness_DecBc3Result :
    (3 : Fin 4).val = (0xAA5500FF : BitVec 32).toNat / 2 ^ (2 * (1 : Fin 16).val) % 4 ∧
    (7 : Fin 8).val = (0x123456789ABC : BitVec 48).toNat / 2 ^ (3 * (1 : Fin 16).val) % 8 ∧
    (2 : Fin 4).val = (0xAA5500FF : BitVec 32).toNat / 2 ^ (2 * (15 : Fin 16).val) % 4 ∧
    (0 : Fin 8).val = (0x123456789ABC : BitVec 48).toNat / 2 ^ (3 * (15 : Fin 16).val) % 8 := by decide

theorem test_witness_DepthConversionLaws :
    (30 : BitVec 5) < 31 ∧ (62 : BitVec 6) < 63 ∧ (0xFE : Byte) ≤ 0xFF ∧ (0xFF : Byte) ≤ 0xFF := by decide

theorem test_witness_MixLaws : 0 < 0 + 1 ∧ 0 < 1 + 0 ∧ 0 < 6 + 1 := by decide

theorem test_witness_TableEntriesLieBetweenReferences :
    Rgb.g ∈ [Rgb.r, Rgb.g, Rgb.b] ∧
    ((0x80 : Byte).toNat > (0x80 : Byte).toNat ∨ (5 : Fin 8).val < 6) ∧
    ((0xFF : Byte).toNat > (0xFE : Byte).toNat ∨ (7 : Fin 8).val < 6) := ⟨by simp, by decide, by decide⟩

/-- A response has bytes to bound: IDX2 and IDX3 of all ones answer 3 and 7 (section 5). -/
theorem test_witness_IndicesAreInRange :
    (3 : Byte) ∈ laneBytes zextByte (idx2 0xFFFFFFFF) ∧ (7 : Byte) ∈ laneBytes zextByte (idx3 0xFFFFFFFFFFFF) := by
  decide

/-- Index 3 and index 2 in the 3-color mode (equal references, block B3), and the 4-color mode. -/
theorem test_witness_Bc1TransparencyOnlyInThreeColorMode :
    (0xABCD : PackedColor16).toNat > (0x1234 : PackedColor16).toNat ∧
    (0x8410 : PackedColor16).toNat ≤ (0x8410 : PackedColor16).toNat ∧
    (0xAA5500FF : BitVec 32).toNat / 2 ^ (2 * (3 : Fin 16).val) % 4 = 3 ∧
    (0xAA5500FF : BitVec 32).toNat / 2 ^ (2 * (15 : Fin 16).val) % 4 ≠ 3 := by decide

theorem test_witness_LanesAreIndependent :
    (0xC0000000 : BitVec 32).extractLsb' (2 * (15 : Fin 16).val) 2 =
      (0xFFFFFFFF : BitVec 32).extractLsb' (2 * (15 : Fin 16).val) 2 ∧
    BitVec.extractLsb' (4 * (15 : Fin 16).val) 4 (0xF000000000000000 : BitVec 64) =
      BitVec.extractLsb' (4 * (15 : Fin 16).val) 4 (0xFFFFFFFFFFFFFFFF : BitVec 64) ∧
    BitVec.extractLsb' (3 * (15 : Fin 16).val) 3 (0xE00000000000 : BitVec 48) =
      BitVec.extractLsb' (3 * (15 : Fin 16).val) 3 (0xFFFFFFFFFFFF : BitVec 48) ∧
    (Rgb.mk 1 2 3).r = (Rgb.mk 1 8 9).r := by decide

theorem test_witness_LegalInstructionsNeverRaise :
    (Instr.mix 0x12 0x34 0 1).wf = true ∧ (Instr.mix 0x12 0x34 1 0).wf = true ∧ (Instr.expand5 31).wf = true ∧
    (Instr.mix 0x12 0x34 0 0).wf = false := by decide

theorem test_witness_OperationsTouchNothingElse :
    ∃ t, exec (.idx2 0x12345678) twoUnits = .next t := ⟨_, rfl⟩

theorem test_witness_NoMemoryOfEarlierRequests :
    (∃ t, serve ⟨0x06, 0xFF⟩ twoUnits = .next t) ∧ State.reset.others = [] ∧ ∃ t u v, step (State.reset.placeRequest ⟨0x06, 0xFF⟩) = .next t ∧
      step (t.placeRequest ⟨0x41, 0xFF⟩) = .next u ∧ step (State.reset.placeRequest ⟨0x41, 0xFF⟩) = .next v :=
  ⟨⟨_, rfl⟩, rfl, _, _, _, rfl, rfl, rfl⟩

/-- Both clauses: an instance that holds a request and one that holds none. -/
theorem test_witness_StepTouchesOneInstance :
    (∃ t, step twoUnits = .next t) ∧ twoUnits.port.req ≠ none ∧
    (∃ t, step State.reset = .next t) ∧ State.reset.port.req = none :=
  ⟨⟨_, rfl⟩, by decide, ⟨_, rfl⟩, rfl⟩

theorem test_witness_ResetLeavesEveryInstanceIdle :
    State.reset.ports ≠ [] ∧ twoUnits.resetDecoder.ports ≠ [] := by decide

/-- A request, and a block move of the driver. -/
theorem test_witness_EveryStepKeepsTheInvariant :
    (twoUnits.inv = true ∧ ∃ t, step twoUnits = .next t) ∧
    (p1LastBlock.inv = true ∧ ∃ t, step p1LastBlock = .next t) :=
  ⟨⟨by decide, _, rfl⟩, by decide, _, rfl⟩

/-- A block move and the refused size. -/
theorem test_witness_NoAccessLeavesItsBuffer :
    p1LastBlock.inv = true ∧ (∃ t, step p1LastBlock = .next t) ∧
    (bulkState ⟨1, false, 6, 4⟩ .start p1Bytes 0).inv = true ∧ (BulkCall.mk 1 false 6 4).wf = false :=
  ⟨by decide, ⟨_, rfl⟩, by decide, by decide⟩

theorem test_witness_BulkRefusesOtherSizes :
    let s := bulkState ⟨1, false, 6, 4⟩ .start p1Bytes 0
    s.port.req = none ∧ s.bulk = some ⟨⟨1, false, 6, 4⟩, .start⟩ ∧ (6 % 4 ≠ 0 ∨ 4 % 4 ≠ 0) ∧
      (4 % 4 ≠ 0 ∨ 7 % 4 ≠ 0) := by decide

/-- Both clauses: formats 0 and 4 beside the supported ones, with an empty buffer, and one byte too few for each of the
formats 1, 2 and 3. -/
theorem test_witness_BulkChecksInOrderWriteNothing :
    (let c : BulkCall := ⟨4, true, 8, 8⟩
     let s := bulkState c .start [] 4
     s.allIdle = true ∧ s.bulk = some ⟨c, .start⟩ ∧ c.width % 4 = 0 ∧ c.height % 4 = 0 ∧
       c.fmt ≠ 1 ∧ c.fmt ≠ 2 ∧ c.fmt ≠ 3 ∧ (0 ≠ 1 ∧ 0 ≠ 2 ∧ 0 ≠ 3)) ∧
    (let s := bulkState p1Call .start (p1Bytes.take 15) 4
     s.allIdle = true ∧ s.bulk = some ⟨p1Call, .start⟩ ∧ p1Call.width % 4 = 0 ∧ p1Call.height % 4 = 0 ∧
       p1Call.fmt = 1 ∧ s.cbuf.len < p1Call.width / 4 * (p1Call.height / 4) * 8) ∧
    (∀ c ∈ [(⟨2, false, 4, 4⟩ : BulkCall), ⟨3, true, 4, 4⟩],
      let s := bulkState c .start (p1Bytes.take 15) 4
      s.allIdle = true ∧ s.bulk = some ⟨c, .start⟩ ∧ c.width % 4 = 0 ∧ c.height % 4 = 0 ∧
        (c.fmt = 2 ∨ c.fmt = 3) ∧ s.cbuf.len < c.width / 4 * (c.height / 4) * 16) := by decide

/-- Every clause has a call: the three formats, `alpha` both ways, and format 0. -/
theorem test_witness_FormatTagSelectsTheDecoder :
    kindOf ⟨1, false, 4, 4⟩ = some .bc1 ∧ kindOf ⟨1, true, 4, 4⟩ = some .bc1a ∧
    kindOf ⟨2, false, 4, 4⟩ = some .bc2 ∧ kindOf ⟨3, true, 4, 4⟩ = some .bc3 ∧
    kindOf ⟨0, true, 4, 4⟩ = none ∧ kindOf ⟨4, true, 4, 4⟩ = none := by decide

/-- Both clauses: a last block, and a block with another behind it. A byte of the left tile is none of the
right one's. -/
theorem test_witness_BlockMoveWritesOneTile :
    (p1LastBlock.inv = true ∧ p1LastBlock.port.req = none ∧
      p1LastBlock.bulk = some ⟨p1Call, .blocks .bc1 [⟨0, 1⟩]⟩) ∧
    (p1Blocks.inv = true ∧ p1Blocks.port.req = none ∧
      p1Blocks.bulk = some ⟨p1Call, .blocks .bc1 [⟨0, 0⟩, ⟨0, 1⟩]⟩) ∧
    2 < bytesPerPixel .bc1 ∧
    ∀ i : Fin 16, ¬ (texelOffset .bc1 p1Call ⟨0, 1⟩ i ≤ 11 ∧
      11 < texelOffset .bc1 p1Call ⟨0, 1⟩ i + bytesPerPixel .bc1) := by decide

theorem test_witness_DriverTilesAreBlockDecodeResponses :
    (p1Bytes.take 8).length = blockByteSize .bc1 ∧ p1Bytes.length = blockByteSize .bc3 := by decide

/-- The last byte of P1's output belongs to texel 15 of block (1,0). -/
theorem test_witness_EveryOutputByteBelongsToOneBlock :
    p1Call.width % 4 = 0 ∧ p1Call.height % 4 = 0 ∧
    95 < p1Call.height * (p1Call.width * bytesPerPixel .bc1) ∧
    (⟨0, 0⟩ : BlockPos) ∈ blockGrid p1Call ∧ (⟨0, 1⟩ : BlockPos) ∈ blockGrid p1Call ∧
    2 < bytesPerPixel .bc1 ∧ 95 = texelOffset .bc1 p1Call ⟨0, 1⟩ 15 + 2 := by decide

/-- Program P1, its last byte, and the image of no blocks. -/
theorem test_witness_BulkCallDecodesTheWholeImage :
    let s := bulkState p1Call .start p1Bytes 4
    (s.inv = true ∧ s.allIdle = true ∧ s.bulk = some ⟨p1Call, .start⟩ ∧ p1Call.width % 4 = 0 ∧
      p1Call.height % 4 = 0 ∧ kindOf p1Call = some .bc1 ∧
      p1Call.width / 4 * (p1Call.height / 4) * blockByteSize .bc1 ≤ s.cbuf.len ∧
      7 < p1Call.width ∧ 3 < p1Call.height ∧ 2 < bytesPerPixel .bc1) ∧
    (kindOf ⟨1, false, 0, 4⟩ = some .bc1 ∧ 0 / 4 * (4 / 4) * blockByteSize .bc1 ≤ State.reset.cbuf.len) := by
  decide

theorem test_witness_BlockOrderIsFree :
    p1Blocks.inv = true ∧ p1Blocks.allIdle = true ∧
    p1Blocks.bulk = some ⟨p1Call, .blocks .bc1 [⟨0, 0⟩, ⟨0, 1⟩]⟩ ∧
    List.Perm [(⟨0, 0⟩ : BlockPos), ⟨0, 1⟩] [⟨0, 1⟩, ⟨0, 0⟩] ∧ [(⟨0, 0⟩ : BlockPos), ⟨0, 1⟩] ≠ [] :=
  ⟨by decide, by decide, rfl, .swap _ _ _, by decide⟩

/-- Check 2 with exactly enough bytes and with excess bytes, grids with and without blocks; a block move, and
another compressed buffer that has other bytes beyond and is longer. -/
theorem test_witness_ExcessCompressedBytesAreNeverRead :
    (let s := bulkState oneBlockCall (.formatChecked .bc1) p1Bytes 48
     s.port.req = none ∧ s.bulk = some ⟨oneBlockCall, .formatChecked .bc1⟩ ∧
       oneBlockCall.width / 4 * (oneBlockCall.height / 4) * blockByteSize .bc1 ≤ s.cbuf.len ∧
       p1Call.width / 4 * (p1Call.height / 4) * blockByteSize .bc1 ≤ s.cbuf.len ∧
       blockGrid oneBlockCall ≠ [] ∧ blockGrid ⟨2, true, 4, 0⟩ = []) ∧
    (let s := bulkState oneBlockCall (.blocks .bc1 [⟨0, 0⟩]) p1Bytes 48
     let m := bufferOf (p1Bytes.take 8 ++ List.replicate 9 0xAA)
     s.inv = true ∧ s.port.req = none ∧ s.bulk = some ⟨oneBlockCall, .blocks .bc1 [⟨0, 0⟩]⟩ ∧ m.wf = true ∧
     oneBlockCall.width / 4 * (oneBlockCall.height / 4) * blockByteSize .bc1 ≤ m.len ∧
     (∀ a, a < oneBlockCall.width / 4 * (oneBlockCall.height / 4) * blockByteSize .bc1 →
       m.read a = s.cbuf.read a) ∧ ∃ t, step s = .next t) :=
  ⟨by decide, by decide, by decide, by decide, by decide, by decide, by decide, _, rfl⟩

theorem test_witness_CompressedBufferIsReadOnly : ∃ t, step p1LastBlock = .next t := ⟨_, rfl⟩

theorem test_witness_RequestAndDriverMovesCommute :
    ∃ u v, serve ⟨0x41, 0xFF⟩ p1LastBlock = .next u ∧
      bulkMove ⟨p1Call, .blocks .bc1 [⟨0, 1⟩]⟩ u = .next v := ⟨_, _, rfl, rfl⟩

end Sys2Proof.Tests
end

/-! ## What a request is answered: the response of an instruction and of a request, said once -/

namespace Sys2Proof.Proofs
open Sys2Proof Sys2Proof.Machine Sys2Proof.Claims

/-- The weights of MIX that the hardware refuses are those of the instruction that is not legal (R52, R82). -/
theorem weightsZero_eq_not_wf (v0 v1 : Byte) (w0 w1 : BitVec 3) :
    weightsZero w0 w1 = !(Instr.mix v0 v1 w0 w1).wf := by
  rw [Bool.eq_iff_iff, weightsZero_iff]
  simp [Instr.wf, BitVec.toNat_eq]

/-- A legal instruction is answered `OK` in every state, with the same result bytes, as many as the last column
of spec/30_encoding.md R51 says. -/
theorem exec_of_wf {i : Instr} (h : i.wf = true) :
    ∃ res : List Byte, res.length = resultLength i.op ∧ ∀ s, exec i s = .next (s.answer res) := by
  cases i with
  | mix v0 v1 w0 w1 =>
    have hw : weightsZero w0 w1 = false := by rw [weightsZero_eq_not_wf v0 v1, h]; rfl
    exact ⟨[_], rfl, fun s => by simp only [exec, execMix, hw]; rfl⟩
  | expand5 _ | expand6 _ | reduce5 _ | reduce6 _ | unpack565 _ => exact ⟨_, rfl, fun _ => rfl⟩
  | decBc1 _ => exact ⟨_, laneBytes_length Rgb.bytes 3 Rgb.bytes_length _, fun _ => rfl⟩
  | decBc2 _ | decBc3 _ | decBc1a _ => exact ⟨_, laneBytes_length Rgba.bytes 4 Rgba.bytes_length _, fun _ => rfl⟩
  | pal4 _ _ | palBc1 _ _ => exact ⟨_, tableBytes_length Rgba.bytes 4 Rgba.bytes_length _, fun _ => rfl⟩
  | idx2 _ | idx3 _ | alpha4 _ => exact ⟨_, laneBytes_length zextByte 1 zextByte_length _, fun _ => rfl⟩
  | ramp8 _ _ => exact ⟨_, tableBytes_length zextByte 1 zextByte_length _, fun _ => rfl⟩

/-- The instruction that is not legal, MIX with both weights zero, is answered `UnsupportedFormat` in every
state (R82). -/
theorem exec_of_not_wf {i : Instr} (h : i.wf = false) (s : State) :
    exec i s = .next (s.raise .unsupportedFormat) := by
  cases i with
  | mix v0 v1 w0 w1 =>
    have hw : weightsZero w0 w1 = true := by rw [weightsZero_eq_not_wf v0 v1, h]; rfl
    simp only [exec, execMix, hw, if_true]
  | _ => cases h

/-- A request that decodes is answered as its instruction. -/
theorem serve_of_decode_ok {r : Request} {i : Instr} (h : decodeRequest r = .ok i) (s : State) :
    serve r s = exec i s := by
  simp only [serve, h]

/-- A request that does not decode, having a reserved code, is answered `UnsupportedFormat` (R52). -/
theorem serve_of_decode_error {r : Request} {e : Reject} (h : decodeRequest r = .error e) (s : State) :
    serve r s = .next (s.raise .unsupportedFormat) := by
  simp only [serve, h, answerReject]

/-- Settles O32: the decoder's answer and the legality of the instruction, which the request alone decides,
choose the response before the state is given. -/
theorem responseIsAFunctionOfTheRequest : Obligations.ResponseIsAFunctionOfTheRequest := by
  unfold Obligations.ResponseIsAFunctionOfTheRequest
  intro r
  cases hd : decodeRequest r with
  | error e => exact ⟨⟨.unsupportedFormat, []⟩, serve_of_decode_error hd, .inr ⟨rfl, rfl⟩⟩
  | ok i =>
    obtain ⟨hop, -⟩ := decodeRequest_ok hd
    cases hw : i.wf with
    | false =>
      exact ⟨⟨.unsupportedFormat, []⟩, fun s => (serve_of_decode_ok hd s).trans (exec_of_not_wf hw s),
        .inr ⟨rfl, rfl⟩⟩
    | true =>
      obtain ⟨res, hlen, hexec⟩ := exec_of_wf hw
      exact ⟨⟨.ok, res⟩, fun s => (serve_of_decode_ok hd s).trans (hexec s), .inl ⟨rfl, i.op, hop, hlen⟩⟩

end Sys2Proof.Proofs

/-! ## Which bytes of a request hold which field: seventeen bytes and the block layouts -/

namespace Sys2Proof.Proofs
open Sys2Proof Sys2Proof.Machine Sys2Proof.Claims

/-! ### The operand of sixteen bytes -/

/-- The operand `A = LE(arg[0..15])` that sixteen bytes spell (R50). -/
def operandOf (b : Fin 16 → Byte) : BitVec 128 := BitVec.ofNat 128 (leNat (List.ofFn b))

/-- A code and sixteen operand bytes spell the request of that code and operand. -/
theorem request_ofBytes_cons (code : Byte) (b : Fin 16 → Byte) :
    Request.ofBytes (code :: List.ofFn b) = ⟨code, operandOf b⟩ := rfl

/-- Seventeen bytes are decoded as the request they spell. -/
theorem decode_of_length {bytes : List Byte} (h : bytes.length = 17) :
    decode bytes = decodeRequest (Request.ofBytes bytes) := by
  have hwf : requestWf bytes = true := by simp [requestWf, Config.requestBytes, h]
  simp only [decode, hwf, if_true]

/-- The code of an operation and sixteen operand bytes decode to the operation with its operand fields. -/
theorem decode_code_cons (o : Op) (b : Fin 16 → Byte) :
    decode (o.code :: List.ofFn b) = .ok (operandFields (operandOf b) o) := by
  rw [decode_of_length (by simp), request_ofBytes_cons, decodeRequest, opOf_code]

/-- Bit `j` of the operand is bit `j mod 8` of byte `j / 8` (R50, R21). -/
theorem operandOf_getLsbD (b : Fin 16 → Byte) (j : Fin 128) :
    (operandOf b).getLsbD j.val = (b ⟨j.val / 8, by omega⟩).getLsbD (j.val % 8) := by
  have hj : j.val / 8 < 16 := by omega
  rw [operandOf, BitVec.getLsbD_ofNat, decide_eq_true j.isLt, Bool.true_and, leNat_testBit,
    List.getElem?_ofFn, dif_pos hj, Option.getD_some]

/-- A slice of whole bytes of the operand is the number those bytes spell. -/
theorem operandOf_slice (b : Fin 16 → Byte) (k n : Nat) (h : k + n ≤ 16) :
    ((operandOf b).extractLsb' (8 * k) (8 * n)).toNat =
      leNat (List.ofFn fun i : Fin n => b ⟨k + i, by omega⟩) := by
  have hbytes : ((List.ofFn b).drop k).take n = List.ofFn fun i : Fin n => b ⟨k + i, by omega⟩ :=
    List.ext_getElem (by simp; omega) fun i _ _ => by
      rw [List.getElem_take, List.getElem_drop, List.getElem_ofFn, List.getElem_ofFn]
  rw [← hbytes]
  exact leNat_slice (List.ofFn b) (by simp) k n (by simpa using h)

/-- A byte of the operand. -/
theorem operandOf_byte (b : Fin 16 → Byte) (k : Nat) (h : k < 16) :
    (operandOf b).extractLsb' (8 * k) 8 = b ⟨k, h⟩ := by
  apply BitVec.eq_of_toNat_eq
  rw [operandOf_slice b k 1 h]
  simp [leNat]

/-- Two neighbouring bytes of the operand, the first the less significant. -/
theorem operandOf_pair (b : Fin 16 → Byte) (k : Nat) (h : k + 1 < 16) :
    ((operandOf b).extractLsb' (8 * k) 16).toNat = (b ⟨k, by omega⟩).toNat + 256 * (b ⟨k + 1, h⟩).toNat := by
  rw [operandOf_slice b k 2 h]
  simp [leNat]

/-! ### The block layouts and the request bytes -/

/-- The block of BC1 is the low half of the operand, so its fields are slices of the operand itself (R41, R53). -/
theorem bc1Block_ofBits_lowHalf (A : BitVec 128) :
    Bc1Block.ofBits (A.extractLsb' 0 64) =
      ⟨A.extractLsb' 0 16, A.extractLsb' 16 16, A.extractLsb' 32 32⟩ := by
  have hlow : A.extractLsb' 0 64 = A.setWidth 64 := (BitVec.setWidth_eq_extractLsb' (by omega)).symm
  rw [hlow, Bc1Block.ofBits, extract_zext A (by omega), extract_zext A (by omega), extract_zext A (by omega)]

/-- Settles O5: every field is a slice of whole bytes of the operand. -/
theorem blockFieldsLieWhereTheLayoutsSay : Obligations.BlockFieldsLieWhereTheLayoutsSay := by
  unfold Obligations.BlockFieldsLieWhereTheLayoutsSay
  intro b
  refine ⟨⟨_, decode_code_cons .decBc1 b, decode_code_cons .decBc1a b, ?_⟩,
    ⟨_, decode_code_cons .decBc2 b, ?_⟩, ⟨_, decode_code_cons .decBc3 b, ?_⟩⟩
  · rw [bc1Block_ofBits_lowHalf]
    exact ⟨operandOf_pair b 0 (by omega), operandOf_pair b 2 (by omega), operandOf_slice b 4 4 (by omega)⟩
  · exact ⟨operandOf_slice b 0 8 (by omega), operandOf_pair b 8 (by omega), operandOf_pair b 10 (by omega),
      operandOf_slice b 12 4 (by omega)⟩
  · exact ⟨operandOf_byte b 0 (by omega), operandOf_byte b 1 (by omega), operandOf_slice b 2 6 (by omega),
      operandOf_pair b 8 (by omega), operandOf_pair b 10 (by omega), operandOf_slice b 12 4 (by omega)⟩

/-- Settles O6: the first byte is the code, the other sixteen are the operand, whose bits `operandOf_getLsbD`
finds. -/
theorem requestBytesAreLittleEndian : Obligations.RequestBytesAreLittleEndian := by
  unfold Obligations.RequestBytesAreLittleEndian
  intro b
  have hr : Request.ofBytes (List.ofFn b) = ⟨b 0, operandOf fun k => b k.succ⟩ := by
    rw [List.ofFn_succ, request_ofBytes_cons]
  refine ⟨decode_of_length (by simp), by rw [hr], fun j => ?_⟩
  have hbyte : (⟨j.val / 8, by omega⟩ : Fin 16).succ = ⟨1 + j.val / 8, by omega⟩ :=
    Fin.ext (Nat.add_comm _ _)
  rw [hr, operandOf_getLsbD, hbyte]

/-! ### Reserved requests -/

/-- A code selects no operation exactly when it is none of the sixteen of the table (R51, R52). -/
theorem opOf_eq_none_iff (code : Byte) : opOf code = none ↔ code ∉ codeTable.map (·.1) := by
  have htable : codeTable = opTable := rfl
  simp only [opOf, htable, Option.map_eq_none_iff, List.find?_eq_none, List.mem_map, beq_iff_eq,
    not_exists, not_and]

/-- A request with a reserved code is rejected by its code, whatever its operand (R52). -/
theorem decodeRequest_of_reserved {code : Byte} (h : code ∉ codeTable.map (·.1)) (arg : BitVec 128) :
    decodeRequest ⟨code, arg⟩ = .error (.reservedOp code) := by
  rw [decodeRequest, (opOf_eq_none_iff code).2 h]

/-- Raising an error at a request is answering it with that status and no result bytes. -/
theorem raise_eq_answered (s : State) (e : Status) : s.raise e = answered s ⟨e, []⟩ := rfl

/-- Settles O10: a reserved code is rejected by the decoder, MIX with zero weights is the instruction that is
not legal; both raise `UnsupportedFormat`. -/
theorem reservedRequestsAnswerUnsupportedFormat : Obligations.ReservedRequestsAnswerUnsupportedFormat := by
  unfold Obligations.ReservedRequestsAnswerUnsupportedFormat
  refine ⟨fun s op arg h => ?_, fun s v0 v1 => ?_⟩
  · rw [serve_of_decode_error (decodeRequest_of_reserved h arg), raise_eq_answered]
  · have hwf : (Instr.mix v0 v1 0 0).wf = false := rfl
    rw [exec_of_not_wf hwf, raise_eq_answered]

end Sys2Proof.Proofs

/-! ## Operands and results of the depth converter (spec/40_depth_convert.md R70 to R76) -/

namespace Sys2Proof.Proofs
open Sys2Proof Sys2Proof.Machine Sys2Proof.Claims

/-! ### Which operand bits an operation reads -/

/-- A field of the operand is its slice of the operand's bits (R50). -/
theorem extractLsb'_eq_field (A : BitVec 128) (lo width : Nat) : A.extractLsb' lo width = field A lo width := by
  rw [field, BitVec.extractLsb', Nat.shiftRight_eq_div_pow]

/-- The code of an operation reads the operation's operand fields (R51, R53). -/
theorem reads_code {o : Op} {fields : BitVec 128 → Instr} (h : ∀ A, operandFields A o = fields A) :
    reads o.code fields := fun A => by
  rw [decodeRequest, opOf_code, ← h A]

/-! ### What the five operations answer -/

/-- EXPAND5 answers its operand expanded from 5 bits, in one byte (R71). -/
theorem exec_expand5 (n : BitVec 5) (s : State) :
    exec (.expand5 n) s = .next (answered s ⟨.ok, [expand5 n]⟩) := rfl

/-- EXPAND6 answers its operand expanded from 6 bits, in one byte (R72). -/
theorem exec_expand6 (n : BitVec 6) (s : State) :
    exec (.expand6 n) s = .next (answered s ⟨.ok, [expand6 n]⟩) := rfl

/-- REDUCE5 answers its operand reduced to 5 bits, zero-extended to one byte (R74). -/
theorem exec_reduce5 (n8 : Byte) (s : State) :
    exec (.reduce5 n8) s = .next (answered s ⟨.ok, [(reduce5 n8).setWidth 8]⟩) := rfl

/-- REDUCE6 answers its operand reduced to 6 bits, zero-extended to one byte (R75). -/
theorem exec_reduce6 (n8 : Byte) (s : State) :
    exec (.reduce6 n8) s = .next (answered s ⟨.ok, [(reduce6 n8).setWidth 8]⟩) := rfl

/-- UNPACK565 answers the three expanded fields of its operand, red first (R76). -/
theorem exec_unpack565 (c : PackedColor16) (s : State) :
    exec (.unpack565 c) s =
      .next (answered s ⟨.ok, [expand5 (red5 c), expand6 (green6 c), expand5 (blue5 c)]⟩) := rfl

/-! ### The statements -/

/-- Settles O12: the two expansions lose no width, by `toNat_expand5` and `toNat_expand6`. -/
theorem expandResults : Obligations.ExpandResults := by
  unfold Obligations.ExpandResults
  exact ⟨reads_code (o := .expand5) fun A => congrArg _ (extractLsb'_eq_field A 0 5),
    reads_code (o := .expand6) fun A => congrArg _ (extractLsb'_eq_field A 0 6),
    fun n s => ⟨_, exec_expand5 n s, toNat_expand5 n⟩, fun n s => ⟨_, exec_expand6 n s, toNat_expand6 n⟩⟩

/-- Settles O13: zero-extension keeps the reduced number, which its own width bounds. -/
theorem reduceResults : Obligations.ReduceResults := by
  unfold Obligations.ReduceResults
  refine ⟨reads_code (o := .reduce5) fun A => congrArg _ (extractLsb'_eq_field A 0 8),
    reads_code (o := .reduce6) fun A => congrArg _ (extractLsb'_eq_field A 0 8),
    fun n8 s => ⟨_, exec_reduce5 n8 s, ?_⟩, fun n8 s => ⟨_, exec_reduce6 n8 s, ?_⟩⟩
  · rw [BitVec.toNat_setWidth_of_le (by omega)]
    exact ⟨toNat_reduce5 n8, (reduce5 n8).isLt⟩
  · rw [BitVec.toNat_setWidth_of_le (by omega)]
    exact ⟨toNat_reduce6 n8, (reduce6 n8).isLt⟩

/-- Settles O14: each byte is the expansion of one packed field, whose place in the colour `toNat_red5`,
`toNat_green6` and `toNat_blue5` give. -/
theorem unpack565Result : Obligations.Unpack565Result := by
  unfold Obligations.Unpack565Result
  refine ⟨reads_code (o := .unpack565) fun A => congrArg _ (extractLsb'_eq_field A 0 16),
    fun c s => ⟨_, _, _, exec_unpack565 c s, ?_, ?_, ?_⟩⟩
  · rw [toNat_expand5, toNat_red5]
  · rw [toNat_expand6, toNat_green6]
  · rw [toNat_expand5, toNat_blue5]

end Sys2Proof.Proofs

/-! ## Operands and results of the palette unit (spec/41_palette.md R80 to R88) -/

namespace Sys2Proof.Proofs
open Sys2Proof Sys2Proof.Machine Sys2Proof.Claims

/-! ### The colour tables as numbers -/

/-- No width is lost in a mix of two colours, channel by channel (R81, R170). -/
theorem toNat_mix3 {w0 w1 : Nat} (h : 0 < w0 + w1) (p q : Rgb) :
    (mix3 w0 p w1 q).r.toNat = (w0 * p.r.toNat + w1 * q.r.toNat) / (w0 + w1) ∧
    (mix3 w0 p w1 q).g.toNat = (w0 * p.g.toNat + w1 * q.g.toNat) / (w0 + w1) ∧
    (mix3 w0 p w1 q).b.toNat = (w0 * p.b.toNat + w1 * q.b.toNat) / (w0 + w1) :=
  ⟨toNat_mix h _ _, toNat_mix h _ _, toNat_mix h _ _⟩

/-- The sixteen bytes of a table that opens with two opaque colours and an opaque mix, as numbers: entry after
entry, red first (R56, R58). -/
theorem toNat_tableBytes (p q m : Rgb) (e : Rgba) :
    (tableBytes Rgba.bytes #v[p.withAlpha 255, q.withAlpha 255, m.withAlpha 255, e]).map BitVec.toNat =
      [p.r.toNat, p.g.toNat, p.b.toNat, 255, q.r.toNat, q.g.toNat, q.b.toNat, 255,
       m.r.toNat, m.g.toNat, m.b.toNat, 255, e.r.toNat, e.g.toNat, e.b.toNat, e.a.toNat] := rfl

/-- With `color0 > color1` as raw values the table of PALBC1 is the one of PAL4 (R86). -/
theorem palBc1_of_gt {c0 c1 : PackedColor16} (h : c0.toNat > c1.toNat) : palBc1 c0 c1 = pal4 c0 c1 :=
  if_pos (colorGreater_iff.2 h)

/-- Otherwise, equality included, it is the 3-color table (R86). -/
theorem palBc1_of_le {c0 c1 : PackedColor16} (h : c0.toNat ≤ c1.toNat) : palBc1 c0 c1 = pal3 c0 c1 :=
  if_neg fun hgt => Nat.not_lt.2 h (colorGreater_iff.1 hgt)

/-! ### What the three operations answer -/

/-- MIX with a non-zero weight sum answers the mix, in one byte (R82). -/
theorem exec_mix {w0 w1 : BitVec 3} (h : w0.toNat + w1.toNat ≠ 0) (v0 v1 : Byte) (s : State) :
    exec (.mix v0 v1 w0 w1) s = .next (answered s ⟨.ok, [mix w0.toNat v0 w1.toNat v1]⟩) :=
  if_neg fun hz => h (weightsZero_iff.1 hz)

/-- MIX with a zero weight sum answers `UnsupportedFormat` and no result (R82). -/
theorem exec_mix_zero {w0 w1 : BitVec 3} (h : w0.toNat + w1.toNat = 0) (v0 v1 : Byte) (s : State) :
    exec (.mix v0 v1 w0 w1) s = .next (answered s ⟨.unsupportedFormat, []⟩) :=
  if_pos (weightsZero_iff.2 h)

/-- PAL4 answers the bytes of the 4-distinct-color table (R84). -/
theorem exec_pal4 (c0 c1 : PackedColor16) (s : State) :
    exec (.pal4 c0 c1) s = .next (answered s ⟨.ok, tableBytes Rgba.bytes (pal4 c0 c1)⟩) := rfl

/-- PALBC1 answers the bytes of the table the raw comparison chooses (R87). -/
theorem exec_palBc1 (c0 c1 : PackedColor16) (s : State) :
    exec (.palBc1 c0 c1) s = .next (answered s ⟨.ok, tableBytes Rgba.bytes (palBc1 c0 c1)⟩) := rfl

/-! ### The statements -/

/-- Settles O15: the weight sum decides between the mix, whose value `toNat_mix` gives, and the error. -/
theorem mixResultAndError : Obligations.MixResultAndError := by
  unfold Obligations.MixResultAndError
  exact ⟨reads_code (o := .mix) fun A => by simp only [operandFields, extractLsb'_eq_field],
    fun v0 v1 w0 w1 s h => ⟨_, exec_mix h v0 v1 s, toNat_mix (Nat.pos_of_ne_zero h) v0 v1⟩,
    fun v0 v1 w0 w1 s h => exec_mix_zero h v0 v1 s⟩

/-- Settles O16: the two mixed entries are the channelwise mixes with weights 2, 1 and 1, 2. -/
theorem pal4Result : Obligations.Pal4Result := by
  unfold Obligations.Pal4Result
  refine ⟨reads_code (o := .pal4) fun A => by simp only [operandFields, extractLsb'_eq_field],
    fun c0 c1 s => ⟨_, exec_pal4 c0 c1 s, ?_⟩⟩
  obtain ⟨hr2, hg2, hb2⟩ := toNat_mix3 (w0 := 2) (w1 := 1) (by decide) (unpack565 c0) (unpack565 c1)
  obtain ⟨hr3, hg3, hb3⟩ := toNat_mix3 (w0 := 1) (w1 := 2) (by decide) (unpack565 c0) (unpack565 c1)
  rw [pal4, toNat_tableBytes]
  simp [Rgb.withAlpha, hr2, hg2, hb2, hr3, hg3, hb3]

/-- Settles O17: above, the table is the one of PAL4; otherwise its third entry is the mix with equal weights. -/
theorem palBc1Result : Obligations.PalBc1Result := by
  unfold Obligations.PalBc1Result
  refine ⟨reads_code (o := .palBc1) fun A => by simp only [operandFields, extractLsb'_eq_field],
    fun c0 c1 s => ⟨fun hgt => ⟨_, exec_palBc1 c0 c1 s, ?_⟩, fun hle => ⟨_, exec_palBc1 c0 c1 s, ?_⟩⟩⟩
  · rw [palBc1_of_gt hgt, exec_pal4]
  · obtain ⟨hr, hg, hb⟩ := toNat_mix3 (w0 := 1) (w1 := 1) (by decide) (unpack565 c0) (unpack565 c1)
    rw [palBc1_of_le hle, pal3, toNat_tableBytes]
    simp [hr, hg, hb]

end Sys2Proof.Proofs

/-! ## Operands and results of the one-byte lanes: index unpackers and explicit alpha (spec/42_index_unpack.md R90
to R94, spec/43_alpha.md R100, R102) -/

namespace Sys2Proof.Proofs
open Sys2Proof Sys2Proof.Machine Sys2Proof.Claims

/-! ### One-byte lanes as numbers -/

/-- Zero-extension to a byte keeps the number in each lane (R55, R57). -/
theorem map_toNat_laneBytes {w : Nat} (hw : w ≤ 8) (f : Lanes (BitVec w)) :
    (laneBytes zextByte f).map BitVec.toNat = List.ofFn fun i => (f i).toNat := by
  rw [laneBytes_zext, List.map_ofFn]
  exact congrArg List.ofFn (funext fun i => BitVec.toNat_setWidth_of_le hw)

/-- Lanes whose numbers are given texel by texel are answered in ascending texel index (R54). -/
theorem map_toNat_laneBytes_eq_range {w : Nat} (hw : w ≤ 8) {f : Lanes (BitVec w)} {g : Nat → Nat}
    (h : ∀ i : Fin 16, (f i).toNat = g i.val) :
    (laneBytes zextByte f).map BitVec.toNat = (List.range 16).map g := by
  rw [map_toNat_laneBytes hw, funext h, List.ofFn_eq_map, ← List.map_coe_finRange_eq_range, List.map_map]
  rfl

/-- The width of the lanes bounds every byte answered (R94). -/
theorem toNat_lt_of_mem_laneBytes {w : Nat} (hw : w ≤ 8) {f : Lanes (BitVec w)} {b : Byte}
    (hb : b ∈ laneBytes zextByte f) : b.toNat < 2 ^ w := by
  have hmem := List.mem_map_of_mem (f := BitVec.toNat) hb
  rw [map_toNat_laneBytes hw, List.mem_ofFn] at hmem
  obtain ⟨i, hi⟩ := hmem
  rw [← hi]
  exact (f i).isLt

/-! ### What the three operations answer -/

/-- IDX2 answers the sixteen 2-bit indices, a byte each (R91). -/
theorem exec_idx2 (ci : BitVec 32) (s : State) :
    exec (.idx2 ci) s = .next (answered s ⟨.ok, laneBytes zextByte (idx2 ci)⟩) := rfl

/-- IDX3 answers the sixteen 3-bit indices, a byte each (R93). -/
theorem exec_idx3 (ai : BitVec 48) (s : State) :
    exec (.idx3 ai) s = .next (answered s ⟨.ok, laneBytes zextByte (idx3 ai)⟩) := rfl

/-- ALPHA4 answers the sixteen expanded alphas, a byte each (R102). -/
theorem exec_alpha4 (ab : BitVec 64) (s : State) :
    exec (.alpha4 ab) s = .next (answered s ⟨.ok, laneBytes zextByte (alpha4 ab)⟩) := rfl

/-! ### The statements -/

/-- Settles O27: a byte answered is a lane of two, respectively three, bits. -/
theorem indicesAreInRange : Obligations.IndicesAreInRange := by
  unfold Obligations.IndicesAreInRange
  exact ⟨fun ci s => ⟨_, exec_idx2 ci s, fun b hb => Nat.le_of_lt_succ (toNat_lt_of_mem_laneBytes (by omega) hb)⟩,
    fun ai s => ⟨_, exec_idx3 ai s, fun b hb => Nat.le_of_lt_succ (toNat_lt_of_mem_laneBytes (by omega) hb)⟩⟩

/-- Settles O18: the lanes are the packed fields, whose place in the operand `toNat_colorIndex`,
`toNat_alphaIndex` and `toNat_alpha4` give. -/
theorem laneResults : Obligations.LaneResults := by
  unfold Obligations.LaneResults
  exact ⟨reads_code (o := .idx2) fun A => congrArg _ (extractLsb'_eq_field A 0 32),
    reads_code (o := .idx3) fun A => congrArg _ (extractLsb'_eq_field A 0 48),
    reads_code (o := .alpha4) fun A => congrArg _ (extractLsb'_eq_field A 0 64),
    fun ci s => ⟨_, exec_idx2 ci s, map_toNat_laneBytes_eq_range (by omega) (toNat_colorIndex ci)⟩,
    fun ai s => ⟨_, exec_idx3 ai s, map_toNat_laneBytes_eq_range (by omega) (toNat_alphaIndex ai)⟩,
    fun ab s => ⟨_, exec_alpha4 ab s, map_toNat_laneBytes_eq_range (by omega) (toNat_alpha4 ab)⟩⟩

end Sys2Proof.Proofs

/-! ## Operands and result of the alpha ramp (spec/43_alpha.md R101, R103) -/

namespace Sys2Proof.Proofs
open Sys2Proof Sys2Proof.Machine Sys2Proof.Claims

/-! ### The two ramps as numbers -/

/-- The 6-step ramp loses no width: its six mixed entries are the exact sevenths (R101, R170). -/
theorem map_toNat_ramp6Step (a0 a1 : Byte) :
    (ramp6Step a0 a1).toList.map BitVec.toNat =
      [a0.toNat, a1.toNat, (6 * a0.toNat + 1 * a1.toNat) / 7, (5 * a0.toNat + 2 * a1.toNat) / 7,
       (4 * a0.toNat + 3 * a1.toNat) / 7, (3 * a0.toNat + 4 * a1.toNat) / 7,
       (2 * a0.toNat + 5 * a1.toNat) / 7, (1 * a0.toNat + 6 * a1.toNat) / 7] := by
  simp [ramp6Step, toNat_mix]

/-- The 4-step ramp loses no width: four exact fifths, then the constants 0 and 255 (R101, R170). -/
theorem map_toNat_ramp4Step (a0 a1 : Byte) :
    (ramp4Step a0 a1).toList.map BitVec.toNat =
      [a0.toNat, a1.toNat, (4 * a0.toNat + 1 * a1.toNat) / 5, (3 * a0.toNat + 2 * a1.toNat) / 5,
       (2 * a0.toNat + 3 * a1.toNat) / 5, (1 * a0.toNat + 4 * a1.toNat) / 5, 0, 255] := by
  simp [ramp4Step, toNat_mix]

/-- With `a0 > a1` the ramp is the 6-step one (R101). -/
theorem ramp8_of_gt {a0 a1 : Byte} (h : a0.toNat > a1.toNat) : ramp8 a0 a1 = ramp6Step a0 a1 :=
  if_pos (alphaGreater_iff.2 h)

/-- Otherwise, equality included, it is the 4-step one (R101). -/
theorem ramp8_of_le {a0 a1 : Byte} (h : a0.toNat ≤ a1.toNat) : ramp8 a0 a1 = ramp4Step a0 a1 :=
  if_neg fun hgt => Nat.not_lt.2 h (alphaGreater_iff.1 hgt)

/-- RAMP8 answers the eight entries of the ramp, a byte each (R103). -/
theorem exec_ramp8 (a0 a1 : Byte) (s : State) :
    exec (.ramp8 a0 a1) s = .next (answered s ⟨.ok, (ramp8 a0 a1).toList⟩) := by
  rw [← tableBytes_byte]
  rfl

/-! ### The statement -/

/-- Settles O19: the comparison of the two alphas chooses the ramp, whose values `map_toNat_ramp6Step` and
`map_toNat_ramp4Step` give. -/
theorem ramp8Result : Obligations.Ramp8Result := by
  unfold Obligations.Ramp8Result
  refine ⟨reads_code (o := .ramp8) fun A => by simp only [operandFields, extractLsb'_eq_field],
    fun a0 a1 s => ⟨_, exec_ramp8 a0 a1 s, fun hgt => ?_, fun hle => ?_⟩⟩
  · rw [ramp8_of_gt hgt, map_toNat_ramp6Step]
  · rw [ramp8_of_le hle, map_toNat_ramp4Step]

end Sys2Proof.Proofs

/-! ## Operands and results of the block decoders (spec/44_block_decode.md R110 to R114) -/

namespace Sys2Proof.Proofs
open Sys2Proof Sys2Proof.Machine Sys2Proof.Claims

/-! ### The table entry a texel selects -/

/-- The colour-table entry of a texel is the one its bits `ci[2i+1:2i]` number (R90, R110). -/
theorem lookup_idx2 {α : Type} (table : Vector α (2 ^ 2)) {ci : BitVec 32} {i : Fin 16} {k : Fin 4}
    (h : k.val = ci.toNat / 2 ^ (2 * i.val) % 4) : lookup table (idx2 ci i) = table.get k :=
  lookup_eq_get table _ k (h.trans (toNat_colorIndex ci i).symm)

/-- The alpha-table entry of a texel is the one its bits `ai[3i+2:3i]` number (R92, R110). -/
theorem lookup_idx3 {α : Type} (table : Vector α (2 ^ 3)) {ai : BitVec 48} {i : Fin 16} {m : Fin 8}
    (h : m.val = ai.toNat / 2 ^ (3 * i.val) % 8) : lookup table (idx3 ai i) = table.get m :=
  lookup_eq_get table _ m (h.trans (toNat_alphaIndex ai i).symm)

/-- A texel of the BC1 tile is a whole entry of the table of PALBC1, its alpha included (R111). -/
theorem decBc1a_eq_get {block : Bc1Block} {i : Fin 16} {k : Fin 4}
    (h : k.val = block.colorIndices.toNat / 2 ^ (2 * i.val) % 4) :
    decBc1a block i = (palBc1 block.color0 block.color1).get k :=
  lookup_idx2 _ h

/-- A texel of the BC2 tile is a colour of the table of PAL4 with the texel's explicit alpha (R113). -/
theorem decBc2_eq_get {block : Bc2Block} {i : Fin 16} {k : Fin 4}
    (h : k.val = block.colorIndices.toNat / 2 ^ (2 * i.val) % 4) :
    decBc2 block i = ((pal4 block.color0 block.color1).get k).rgb.withAlpha (alpha4 block.alphaBits i) := by
  simp only [decBc2, lookup_idx2 _ h]

/-- A texel of the BC3 tile is a colour of the table of PAL4 with an alpha of the table of RAMP8 (R114). -/
theorem decBc3_eq_get {block : Bc3Block} {i : Fin 16} {k : Fin 4} {m : Fin 8}
    (hk : k.val = block.colorIndices.toNat / 2 ^ (2 * i.val) % 4)
    (hm : m.val = block.alphaIndexBits.toNat / 2 ^ (3 * i.val) % 8) :
    decBc3 block i = ((pal4 block.color0 block.color1).get k).rgb.withAlpha
      ((ramp8 block.alpha0 block.alpha1).get m) := by
  simp only [decBc3, lookup_idx2 _ hk, lookup_idx3 _ hm]

/-! ### The bytes of a tile -/

/-- An RGBA8888 tile has 64 bytes (R54). -/
theorem rgbaTile_length (tile : Lanes Rgba) : (laneBytes Rgba.bytes tile).length = 64 :=
  laneBytes_length Rgba.bytes 4 Rgba.bytes_length tile

/-- Texel `i` of an RGBA8888 tile is in the bytes from `4i` on (R54). -/
theorem rgbaTile_texel (tile : Lanes Rgba) (i : Fin 16) :
    ((laneBytes Rgba.bytes tile).drop (4 * i.val)).take 4 = (tile i).bytes :=
  laneBytes_piece Rgba.bytes 4 Rgba.bytes_length tile i

/-- The first three bytes of texel `i` of an RGBA8888 tile are its colour (R58). -/
theorem rgbaTile_rgb (tile : Lanes Rgba) (i : Fin 16) :
    ((laneBytes Rgba.bytes tile).drop (4 * i.val)).take 3 = (tile i).rgb.bytes := by
  have htake := congrArg (List.take 3) (rgbaTile_texel tile i)
  rwa [List.take_take] at htake

/-- An RGB888 tile has 48 bytes (R54). -/
theorem rgbTile_length (tile : Lanes Rgb) : (laneBytes Rgb.bytes tile).length = 48 :=
  laneBytes_length Rgb.bytes 3 Rgb.bytes_length tile

/-- Texel `i` of an RGB888 tile is in the bytes from `3i` on (R54). -/
theorem rgbTile_texel (tile : Lanes Rgb) (i : Fin 16) :
    ((laneBytes Rgb.bytes tile).drop (3 * i.val)).take 3 = (tile i).bytes :=
  laneBytes_piece Rgb.bytes 3 Rgb.bytes_length tile i

/-! ### What the four operations answer -/

/-- DEC_BC1A answers the BC1 tile with alpha (R111). -/
theorem exec_decBc1a (block : Bc1Block) (s : State) :
    exec (.decBc1a block) s = .next (answered s ⟨.ok, laneBytes Rgba.bytes (decBc1a block)⟩) := rfl

/-- DEC_BC1 answers the BC1 tile without alpha (R112). -/
theorem exec_decBc1 (block : Bc1Block) (s : State) :
    exec (.decBc1 block) s = .next (answered s ⟨.ok, laneBytes Rgb.bytes (decBc1 block)⟩) := rfl

/-- DEC_BC2 answers the BC2 tile (R113). -/
theorem exec_decBc2 (block : Bc2Block) (s : State) :
    exec (.decBc2 block) s = .next (answered s ⟨.ok, laneBytes Rgba.bytes (decBc2 block)⟩) := rfl

/-- DEC_BC3 answers the BC3 tile (R114). -/
theorem exec_decBc3 (block : Bc3Block) (s : State) :
    exec (.decBc3 block) s = .next (answered s ⟨.ok, laneBytes Rgba.bytes (decBc3 block)⟩) := rfl

/-! ### Which operand bits they read -/

/-- The block of BC1 is read from the low half of the operand (R41, R53). -/
theorem bc1Block_ofBits_eq_fields (A : BitVec 128) :
    Bc1Block.ofBits (A.extractLsb' 0 64) = ⟨field A 0 16, field A 16 16, field A 32 32⟩ := by
  rw [bc1Block_ofBits_lowHalf]
  simp only [extractLsb'_eq_field]

/-- The block of BC2 is read from the whole operand, its alpha bits first (R42, R53). -/
theorem bc2Block_ofBits_eq_fields (A : BitVec 128) :
    Bc2Block.ofBits A = ⟨field A 0 64, field A 64 16, field A 80 16, field A 96 32⟩ := by
  simp only [Bc2Block.ofBits, extractLsb'_eq_field]

/-- The block of BC3 is read from the whole operand, its alpha half first (R43, R53). -/
theorem bc3Block_ofBits_eq_fields (A : BitVec 128) :
    Bc3Block.ofBits A =
      ⟨field A 0 8, field A 8 8, field A 16 48, field A 64 16, field A 80 16, field A 96 32⟩ := by
  simp only [Bc3Block.ofBits, extractLsb'_eq_field]

/-! ### The statements -/

/-- Settles O20: the bytes of a texel are those of its table entry, by `decBc1a_eq_get`. -/
theorem decBc1aResult : Obligations.DecBc1aResult := by
  unfold Obligations.DecBc1aResult
  refine ⟨reads_code (o := .decBc1a) fun A => congrArg _ (bc1Block_ofBits_eq_fields A),
    fun block s => ⟨_, exec_decBc1a block s, rgbaTile_length _, fun i k hk => ?_⟩⟩
  rw [rgbaTile_texel, decBc1a_eq_get hk]

/-- Settles O21: both sides are the colour bytes of the same texel of `decBc1a`. -/
theorem decBc1Result : Obligations.DecBc1Result := by
  unfold Obligations.DecBc1Result
  refine ⟨reads_code (o := .decBc1) fun A => congrArg _ (bc1Block_ofBits_eq_fields A),
    fun block s => ⟨_, _, exec_decBc1 block s, exec_decBc1a block s, rgbTile_length _, fun i => ?_⟩⟩
  rw [rgbTile_texel, rgbaTile_rgb, decBc1]

/-- Settles O22: the alpha of a texel is its lane of `alpha4`, whose value `toNat_alpha4` gives. -/
theorem decBc2Result : Obligations.DecBc2Result := by
  unfold Obligations.DecBc2Result
  refine ⟨reads_code (o := .decBc2) fun A => congrArg _ (bc2Block_ofBits_eq_fields A),
    fun block s => ⟨_, exec_decBc2 block s, rgbaTile_length _, fun i k hk =>
      ⟨alpha4 block.alphaBits i, toNat_alpha4 block.alphaBits i, ?_⟩⟩⟩
  rw [rgbaTile_texel, decBc2_eq_get hk]

/-- Settles O23: the bytes of a texel are those of its two table entries, by `decBc3_eq_get`. -/
theorem decBc3Result : Obligations.DecBc3Result := by
  unfold Obligations.DecBc3Result
  refine ⟨reads_code (o := .decBc3) fun A => congrArg _ (bc3Block_ofBits_eq_fields A),
    fun block s => ⟨_, exec_decBc3 block s, rgbaTile_length _, fun i k m hk hm => ?_⟩⟩
  rw [rgbaTile_texel, decBc3_eq_get hk hm]

end Sys2Proof.Proofs

/-! ## The compressed buffer of a bulk call: check 2, and which of its bytes a block move reads
(spec/45_bulk_driver.md sections 3 and 4) -/

namespace Sys2Proof.Proofs
open Sys2Proof Sys2Proof.Machine Sys2Proof.Claims

/-! ### Check 2 -/

/-- Check 2 passes for a compressed buffer of at least the required bytes; all blocks of the grid are to do
(R122, R123). -/
theorem bulkMove_formatChecked_of_le {k : BlockKind} {c : BulkCall} {s : State}
    (h : requiredBytes k c ≤ s.cbuf.len) :
    bulkMove ⟨c, .formatChecked k⟩ s =
      .next ({ s with obuf := s.obuf.resize (outputBytes k c) }.continueBulk c k (blockGrid c)) :=
  if_neg (Nat.not_lt.2 h)

/-- With no block left the call returns `OK` (R131). -/
theorem continueBulk_nil (s : State) (c : BulkCall) (k : BlockKind) :
    s.continueBulk c k [] = s.returnBulk .ok := rfl

/-- With blocks left the call goes on with them, in their order. -/
theorem continueBulk_of_ne_nil {todo : List BlockPos} (h : todo ≠ []) (s : State) (c : BulkCall)
    (k : BlockKind) : s.continueBulk c k todo = { s with bulk := some ⟨c, .blocks k todo⟩ } :=
  if_neg (mt List.isEmpty_iff.1 h)

/-! ### Another compressed buffer -/

/-- `MemRead` gives the same of two buffers that agree on the bytes it reads (spec/20_memory.md R26). -/
theorem readBytes_congr {m m' : Memory} {a n : Nat} (h : ∀ b, a ≤ b → b < a + n → m.read b = m'.read b) :
    m.readBytes a n = m'.readBytes a n := by
  induction n generalizing a with
  | zero => rfl
  | succ n ih =>
    rw [Memory.readBytes, Memory.readBytes, h a (by omega) (by omega),
      ih fun b hle hlt => h b (by omega) (by omega)]

/-- Passing the turn does not look at the compressed buffer. -/
theorem passTurn_with_cbuf (s : State) (m : Memory) :
    { s with cbuf := m }.passTurn = { s.passTurn with cbuf := m } := by
  obtain ⟨_, others, _, _, _, _⟩ := s
  cases others <;> rfl

/-- Going on with the call does not look at the compressed buffer. -/
theorem continueBulk_with_cbuf (s : State) (c : BulkCall) (k : BlockKind) (todo : List BlockPos) (m : Memory) :
    { s with cbuf := m }.continueBulk c k todo = { s.continueBulk c k todo with cbuf := m } := by
  cases todo <;> rfl

/-- A block move reads no byte of the compressed buffer at an offset of `required` or above: over a buffer that
agrees below, the same move happens. -/
theorem bulkMove_blocks_with_cbuf {k : BlockKind} {c : BulkCall} {todo : List BlockPos} {s u : State}
    {m : Memory} (hgrid : ∀ p ∈ todo, p.inGrid c = true)
    (hread : ∀ a, a < requiredBytes k c → m.read a = s.cbuf.read a)
    (h : bulkMove ⟨c, .blocks k todo⟩ s = .next u) :
    bulkMove ⟨c, .blocks k todo⟩ { s with cbuf := m } = .next { u with cbuf := m } := by
  cases todo with
  | nil =>
    obtain rfl : s.returnBulk .ok = u := Host.Outcome.next.inj h
    rfl
  | cons p rest =>
    have hin := blockOffset_le (k := k) (hgrid p List.mem_cons_self)
    have hblock : m.readBytes (blockOffset k c p) (blockByteSize k) =
        s.cbuf.readBytes (blockOffset k c p) (blockByteSize k) :=
      readBytes_congr fun a _ ha => hread a (by omega)
    simp only [bulkMove, bulkBlock, hblock] at h ⊢
    split at h
    · cases h
    · split at h
      · cases h
      · next out _ =>
        obtain rfl := Host.Outcome.next.inj h
        exact congrArg Host.Outcome.next (continueBulk_with_cbuf { s with obuf := out } c k rest m)

/-! ### The statement -/

/-- Settles O49: check 2 is `bulkMove_formatChecked_of_le`; the blocks to do lie in the grid by the invariant,
so their moves read below `required` only, by `bulkMove_blocks_with_cbuf`. -/
theorem excessCompressedBytesAreNeverRead : Obligations.ExcessCompressedBytesAreNeverRead := by
  unfold Obligations.ExcessCompressedBytesAreNeverRead
  refine ⟨fun s c k hreq hbulk hlen => ?_, fun s t m c k todo hinv hreq hbulk _ _ hread hstep => ?_⟩
  · have hmove := congrArg thenPassTurn (bulkMove_formatChecked_of_le hlen)
    refine ⟨_, (step_of_bulk hreq hbulk).trans hmove, fun hgrid => ?_, fun hgrid => ?_⟩
    · rw [State.passTurn_bulk, continueBulk_of_ne_nil hgrid]
    · rw [hgrid, continueBulk_nil, State.passTurn_bulk, State.passTurn_bulkStatus]
      exact ⟨rfl, rfl⟩
  · obtain ⟨-, -, -, -, hgrid⟩ := inv_blocks hinv hbulk
    rw [step_of_bulk hreq hbulk] at hstep
    obtain ⟨u, hu, rfl⟩ := thenPassTurn_next.1 hstep
    calc step { s with cbuf := m }
      _ = thenPassTurn (bulkMove ⟨c, .blocks k todo⟩ { s with cbuf := m }) :=
        step_of_bulk (s := { s with cbuf := m }) hreq hbulk
      _ = thenPassTurn (.next { u with cbuf := m }) := by rw [bulkMove_blocks_with_cbuf hgrid hread hu]
      _ = .next { u.passTurn with cbuf := m } := congrArg Host.Outcome.next (passTurn_with_cbuf u m)

end Sys2Proof.Proofs

/-! ## What a lane, a pixel and a channel depend on (spec/46_common_laws.md R174) -/

namespace Sys2Proof.Proofs
open Sys2Proof Sys2Proof.Machine Sys2Proof.Claims

/-! ### Lanes: each is a function of its own packed field -/

/-- Lane `i` of IDX2 is the field `ci[2i+1:2i]` itself (R90). -/
theorem idx2_eq_of_bits {x y : BitVec 32} {i : Fin 16}
    (h : x.extractLsb' (2 * i.val) 2 = y.extractLsb' (2 * i.val) 2) : idx2 x i = idx2 y i := h

/-- Lane `i` of IDX3 is the field `ai[3i+2:3i]` itself (R92). -/
theorem idx3_eq_of_bits {x y : BitVec 48} {i : Fin 16}
    (h : x.extractLsb' (3 * i.val) 3 = y.extractLsb' (3 * i.val) 3) : idx3 x i = idx3 y i := h

/-- Lane `i` of ALPHA4 is computed from the field `ab[4i+3:4i]` (R100). -/
theorem alpha4_eq_of_bits {x y : BitVec 64} {i : Fin 16}
    (h : x.extractLsb' (4 * i.val) 4 = y.extractLsb' (4 * i.val) 4) : alpha4 x i = alpha4 y i := by
  simp only [alpha4, alphaNibble, h]

/-! ### Pixels: each is a function of the tables and of its own lanes -/

section
variable {x y : BitVec 32} {i : Fin 16} (hix : idx2 x i = idx2 y i)
include hix

/-- Pixel `i` of DEC_BC1A looks up the tile's table at its own lane of IDX2 (R111). -/
theorem decBc1a_eq_of_lane (c0 c1 : PackedColor16) : decBc1a ⟨c0, c1, x⟩ i = decBc1a ⟨c0, c1, y⟩ i :=
  congrArg (lookup (palBc1 c0 c1)) hix

/-- Pixel `i` of DEC_BC1 is the colour of pixel `i` of DEC_BC1A (R112). -/
theorem decBc1_eq_of_lane (c0 c1 : PackedColor16) : decBc1 ⟨c0, c1, x⟩ i = decBc1 ⟨c0, c1, y⟩ i :=
  congrArg Rgba.rgb (decBc1a_eq_of_lane hix c0 c1)

/-- Pixel `i` of DEC_BC2 uses its own lanes of IDX2 and ALPHA4 (R113). -/
theorem decBc2_eq_of_lanes {ab ab' : BitVec 64} (hal : alpha4 ab i = alpha4 ab' i) (c0 c1 : PackedColor16) :
    decBc2 ⟨ab, c0, c1, x⟩ i = decBc2 ⟨ab', c0, c1, y⟩ i := by
  simp only [decBc2, hix, hal]

/-- Pixel `i` of DEC_BC3 uses its own lanes of IDX2 and IDX3 (R114). -/
theorem decBc3_eq_of_lanes {ai ai' : BitVec 48} (hax : idx3 ai i = idx3 ai' i) (a0 a1 : Byte)
    (c0 c1 : PackedColor16) : decBc3 ⟨a0, a1, ai, c0, c1, x⟩ i = decBc3 ⟨a0, a1, ai', c0, c1, y⟩ i := by
  simp only [decBc3, hix, hax]

end

/-! ### Channels: `mix3` is one `mix` per channel (R81) -/

@[simp] theorem mix3_r (w0 w1 : Nat) (p q : Rgb) : (mix3 w0 p w1 q).r = mix w0 p.r w1 q.r := rfl
@[simp] theorem mix3_g (w0 w1 : Nat) (p q : Rgb) : (mix3 w0 p w1 q).g = mix w0 p.g w1 q.g := rfl
@[simp] theorem mix3_b (w0 w1 : Nat) (p q : Rgb) : (mix3 w0 p w1 q).b = mix w0 p.b w1 q.b := rfl

/-! ### The statement -/

/-- Settles O29: equal own bits give equal lanes, equal lanes give equal pixels, and a channel of `mix3` is the
`mix` of that channel. -/
theorem lanesAreIndependent : Obligations.LanesAreIndependent := by
  unfold Obligations.LanesAreIndependent
  refine ⟨fun x y i hbits => ?_, fun w0 w1 p q p' q' => ⟨fun hp hq => ?_, fun hp hq => ?_, fun hp hq => ?_⟩⟩
  · have hix := idx2_eq_of_bits hbits
    refine ⟨hix, fun c0 c1 ab ab' hab => ?_, fun a0 a1 c0 c1 ai ai' hai => ?_, fun c0 c1 =>
      ⟨decBc1a_eq_of_lane hix c0 c1, decBc1_eq_of_lane hix c0 c1⟩⟩
    · have hal := alpha4_eq_of_bits hab
      exact ⟨hal, decBc2_eq_of_lanes hix hal c0 c1⟩
    · have hax := idx3_eq_of_bits hai
      exact ⟨hax, decBc3_eq_of_lanes hix hax a0 a1 c0 c1⟩
  · rw [mix3_r, mix3_r, hp, hq]
  · rw [mix3_g, mix3_g, hp, hq]
  · rw [mix3_b, mix3_b, hp, hq]

end Sys2Proof.Proofs

/-! ## The exceptions of the operations (spec/60_exceptions.md R148) -/

namespace Sys2Proof.Proofs
open Sys2Proof Sys2Proof.Machine Sys2Proof.Claims

/-- Answering a result is the `OK` response of the statements. -/
theorem answer_eq_answered (s : State) (res : List Byte) : s.answer res = answered s ⟨.ok, res⟩ := rfl

/-- The only instructions that are not legal are MIX with both weights zero (R52, R148). -/
theorem eq_mix_zero_of_not_wf {i : Instr} (h : i.wf = false) : ∃ v0 v1, i = .mix v0 v1 0 0 := by
  cases i with
  | mix v0 v1 w0 w1 =>
    have hw : w0 = 0 ∧ w1 = 0 := by simpa [Instr.wf] using h
    obtain ⟨rfl, rfl⟩ := hw
    exact ⟨v0, v1, rfl⟩
  | _ => cases h

/-- Settles O33: legality decides between the result of `exec_of_wf` and the one error of `exec_of_not_wf`; no
instruction faults or is refused. -/
theorem legalInstructionsNeverRaise : Obligations.LegalInstructionsNeverRaise := by
  unfold Obligations.LegalInstructionsNeverRaise
  refine fun i s => ⟨fun hwf => ?_, fun hwf => ⟨eq_mix_zero_of_not_wf hwf, ?_⟩⟩
  · obtain ⟨res, hlen, hexec⟩ := exec_of_wf hwf
    exact ⟨res, by rw [hexec, answer_eq_answered], hlen⟩
  · rw [exec_of_not_wf hwf, raise_eq_answered]

end Sys2Proof.Proofs

/-! ## The encoder undoes the decoder, and what the decoder reads (spec/30_encoding.md sections 5 to 7) -/

namespace Sys2Proof.Proofs
open Sys2Proof Sys2Proof.Machine Sys2Proof.Claims

/-! ### Decoding what the encoder makes -/

/-- The operation a code selects is the operation of the instruction it decodes to, whatever the operand (R51). -/
@[simp] theorem op_operandFields (A : BitVec 128) (o : Op) : (operandFields A o).op = o := by
  cases o <;> rfl

/-- A request with an operation's code decodes to the operation with its operand fields (R51, R53). -/
theorem decodeRequest_code (o : Op) (A : BitVec 128) : decodeRequest ⟨o.code, A⟩ = .ok (operandFields A o) := by
  rw [decodeRequest, opOf_code]

/-- An operand of one field holds the field in its lowest bits (R53). -/
theorem extract_operand_of_field {n : Nat} (h : n ≤ 128) (v : BitVec n) :
    (v.setWidth 128).extractLsb' 0 n = v := by
  rw [extract_zext v (by omega), BitVec.extractLsb'_eq_self]

/-- The lower of two fields next to each other in the lowest bits of the operand (R53). -/
theorem extract_operand_low {n m : Nat} (h : n + m ≤ 128) (v : BitVec n) (u : BitVec m) :
    ((v ++ u).setWidth 128).extractLsb' 0 m = u := by
  rw [extract_zext _ (by omega), extract_append_low _ _ (by omega), BitVec.extractLsb'_eq_self]

/-- The upper of two such fields (R53). -/
theorem extract_operand_high {n m : Nat} (h : n + m ≤ 128) (v : BitVec n) (u : BitVec m) :
    ((v ++ u).setWidth 128).extractLsb' m n = v := by
  rw [extract_zext _ (by omega), extract_append_high _ _ (by omega), Nat.sub_self, BitVec.extractLsb'_eq_self]

/-- The four fields of MIX lie in bytes of their own, the weights in the low bits of theirs (R53). -/
theorem operandFields_mix (v0 v1 : Byte) (w0 w1 : BitVec 3) :
    operandFields (operandBits (.mix v0 v1 w0 w1)) .mix = .mix v0 v1 w0 w1 := by
  have hw : ∀ {k len : Nat}, k + len ≤ 32 → (operandBits (.mix v0 v1 w0 w1)).extractLsb' k len =
      BitVec.extractLsb' (n := 8 + 8 + 8 + 8) k len (w1.setWidth 8 ++ w0.setWidth 8 ++ v1 ++ v0) :=
    fun h => extract_zext _ (by omega)
  simp only [operandFields, Instr.mix.injEq]
  refine ⟨?_, ?_, ?_, ?_⟩
  · rw [hw (by omega), extract_append_low _ _ (by omega), BitVec.extractLsb'_eq_self]
  · rw [hw (by omega), extract_append_high _ _ (by omega), extract_append_low _ _ (by omega),
      BitVec.extractLsb'_eq_self]
  · rw [hw (by omega), extract_append_high _ _ (by omega), extract_append_high _ _ (by omega),
      extract_append_low _ _ (by omega), extract_zext _ (by omega), BitVec.extractLsb'_eq_self]
  · rw [hw (by omega), extract_append_high _ _ (by omega), extract_append_high _ _ (by omega),
      extract_append_high _ _ (by omega), extract_zext _ (by omega), BitVec.extractLsb'_eq_self]

/-- The operand the encoder makes holds an instruction's fields where the decoder reads them (R53, R60). -/
theorem operandFields_operandBits (i : Instr) : operandFields (operandBits i) i.op = i := by
  cases i with
  | decBc1 b =>
    exact congrArg Instr.decBc1 ((congrArg _ (extract_operand_of_field (by omega) _)).trans b.ofBits_toBits)
  | decBc1a b =>
    exact congrArg Instr.decBc1a ((congrArg _ (extract_operand_of_field (by omega) _)).trans b.ofBits_toBits)
  | decBc2 b => exact congrArg Instr.decBc2 b.ofBits_toBits
  | decBc3 b => exact congrArg Instr.decBc3 b.ofBits_toBits
  | expand5 n => exact congrArg Instr.expand5 (extract_operand_of_field (by omega) n)
  | expand6 n => exact congrArg Instr.expand6 (extract_operand_of_field (by omega) n)
  | reduce5 n8 => exact congrArg Instr.reduce5 (extract_operand_of_field (by omega) n8)
  | reduce6 n8 => exact congrArg Instr.reduce6 (extract_operand_of_field (by omega) n8)
  | unpack565 c => exact congrArg Instr.unpack565 (extract_operand_of_field (by omega) c)
  | mix v0 v1 w0 w1 => exact operandFields_mix v0 v1 w0 w1
  | pal4 c0 c1 =>
    exact congrArg₂ Instr.pal4 (extract_operand_low (by omega) c1 c0) (extract_operand_high (by omega) c1 c0)
  | palBc1 c0 c1 =>
    exact congrArg₂ Instr.palBc1 (extract_operand_low (by omega) c1 c0) (extract_operand_high (by omega) c1 c0)
  | idx2 ci => exact congrArg Instr.idx2 (extract_operand_of_field (by omega) ci)
  | idx3 ai => exact congrArg Instr.idx3 (extract_operand_of_field (by omega) ai)
  | alpha4 ab => exact congrArg Instr.alpha4 (extract_operand_of_field (by omega) ab)
  | ramp8 a0 a1 =>
    exact congrArg₂ Instr.ramp8 (extract_operand_low (by omega) a1 a0) (extract_operand_high (by omega) a1 a0)

/-- The request of an instruction decodes to the instruction. -/
theorem decodeRequest_request (i : Instr) : decodeRequest i.request = .ok i := by
  rw [Instr.request, decodeRequest_code, operandFields_operandBits]

/-- Settles O1: the bytes of a request decode as the request, and the request of an instruction as the
instruction. -/
theorem decodeOfEncodeIsIdentity : Obligations.DecodeOfEncodeIsIdentity := by
  unfold Obligations.DecodeOfEncodeIsIdentity
  intro i
  rw [encode, decode_bytes, decodeRequest_request]

/-! ### The code, the ignored operand bits, and other lengths -/

/-- Every row of the written-out table is the code of its operation (R51). -/
theorem code_of_mem_codeTable : ∀ row ∈ codeTable, row.1 = row.2.code := by decide

/-- Settles O3: a code of the table decodes by `decodeRequest_code`, any other by `decodeRequest_of_reserved`. -/
theorem opcodeSelectsByExactValue : Obligations.OpcodeSelectsByExactValue := by
  unfold Obligations.OpcodeSelectsByExactValue
  refine ⟨fun row hrow arg => ⟨operandFields arg row.2, ?_, op_operandFields arg row.2⟩,
    fun op hop arg => decodeRequest_of_reserved hop arg⟩
  rw [code_of_mem_codeTable row hrow, decodeRequest_code]

/-- Operands that agree under a mask agree on every field the mask covers. -/
theorem extract_eq_of_mask {n : Nat} {A B M : BitVec n} (h : A &&& M = B &&& M) {lo width : Nat}
    (hM : M.extractLsb' lo width = BitVec.allOnes width) : A.extractLsb' lo width = B.extractLsb' lo width := by
  have hfield := congrArg (BitVec.extractLsb' lo width) h
  rwa [BitVec.extractLsb'_and, BitVec.extractLsb'_and, hM, BitVec.and_allOnes, BitVec.and_allOnes] at hfield

/-- The operand fields of an operation are a function of the bits under its mask (R53). -/
theorem operandFields_eq_of_mask {o : Op} {A B : BitVec 128} (h : A &&& readMask o = B &&& readMask o) :
    operandFields A o = operandFields B o := by
  cases o with
  | decBc1 | decBc1a => simp only [operandFields, extract_eq_of_mask h (lo := 0) (width := 64) (by decide)]
  | decBc2 | decBc3 =>
    have hAB := extract_eq_of_mask h (lo := 0) (width := 128) (by decide)
    rw [BitVec.extractLsb'_eq_self, BitVec.extractLsb'_eq_self] at hAB
    rw [hAB]
  | expand5 => exact congrArg Instr.expand5 (extract_eq_of_mask h (by decide))
  | expand6 => exact congrArg Instr.expand6 (extract_eq_of_mask h (by decide))
  | reduce5 => exact congrArg Instr.reduce5 (extract_eq_of_mask h (by decide))
  | reduce6 => exact congrArg Instr.reduce6 (extract_eq_of_mask h (by decide))
  | unpack565 => exact congrArg Instr.unpack565 (extract_eq_of_mask h (by decide))
  | mix =>
    simp only [operandFields, Instr.mix.injEq]
    exact ⟨extract_eq_of_mask h (by decide), extract_eq_of_mask h (by decide),
      extract_eq_of_mask h (by decide), extract_eq_of_mask h (by decide)⟩
  | pal4 => exact congrArg₂ Instr.pal4 (extract_eq_of_mask h (by decide)) (extract_eq_of_mask h (by decide))
  | palBc1 => exact congrArg₂ Instr.palBc1 (extract_eq_of_mask h (by decide)) (extract_eq_of_mask h (by decide))
  | idx2 => exact congrArg Instr.idx2 (extract_eq_of_mask h (by decide))
  | idx3 => exact congrArg Instr.idx3 (extract_eq_of_mask h (by decide))
  | alpha4 => exact congrArg Instr.alpha4 (extract_eq_of_mask h (by decide))
  | ramp8 => exact congrArg₂ Instr.ramp8 (extract_eq_of_mask h (by decide)) (extract_eq_of_mask h (by decide))

/-- Settles O4: operands that agree under the mask decode to one and the same instruction. -/
theorem ignoredOperandBitsChangeNothing : Obligations.IgnoredOperandBitsChangeNothing := by
  unfold Obligations.IgnoredOperandBitsChangeNothing
  intro o A B h s
  rw [serve_of_decode_ok (decodeRequest_code o A), serve_of_decode_ok (decodeRequest_code o B),
    operandFields_eq_of_mask h]

/-- Settles O2: six closed runs of the decoder. -/
theorem sampleRequestsDecode : Obligations.SampleRequestsDecode := by
  unfold Obligations.SampleRequestsDecode
  decide

/-- Settles O7: the length check of the decoder fails. -/
theorem otherLengthsAreRejected : Obligations.OtherLengthsAreRejected := by
  unfold Obligations.OtherLengthsAreRejected
  intro bytes hlen
  have hwf : requestWf bytes = false := beq_eq_false_iff_ne.2 hlen
  simp only [decode, hwf, Bool.false_eq_true, if_false]

/-! ### A presented request is the next one served -/

/-- The request of a table word that holds seventeen bytes is the request they spell (R50). -/
theorem tableRequest_bytes (r : Request) : tableRequest 136 (leNat r.bytes) = r := by
  have hlt : leNat r.bytes < 2 ^ 136 := lt_of_lt_of_eq (leNat_lt r.bytes) (by rw [Request.bytes_length]; rfl)
  have hbytes : bytesLE Config.requestBytes (leNat r.bytes) = r.bytes := by
    have hlen : Config.requestBytes = r.bytes.length := r.bytes_length.symm
    rw [hlen, bytesLE_leNat]
  rw [tableRequest, tableWordBytes, Nat.mod_eq_of_lt hlt, hbytes, Request.ofBytes_bytes]

/-- Settles O9: the word's request is the instruction's, which is then pending, decodes to the instruction, and is
served first. -/
theorem presentedWordRunsNext : Obligations.PresentedWordRunsNext := by
  unfold Obligations.PresentedWordRunsNext
  intro s i
  have hword : s.withFetchWord 136 (leNat (encode i)) = s.placeRequest i.request :=
    congrArg s.placeRequest (tableRequest_bytes i.request)
  rw [hword, step_of_request (r := i.request) rfl, serve_of_decode_ok (decodeRequest_request i)]

end Sys2Proof.Proofs

/-! ## What a step changes and what it keeps (spec/10_state.md sections 3, 8 and 9, spec/60_exceptions.md section 9) -/

namespace Sys2Proof.Proofs
open Sys2Proof Sys2Proof.Machine Sys2Proof.Claims

/-! ### The state operations -/

/-- A response replaces the one before it and leaves nothing of it. -/
@[simp] theorem respond_respond (s : State) (rsp rsp' : Response) : (s.respond rsp).respond rsp' = s.respond rsp' := rfl

/-- A response leaves nothing of the request it answers. -/
@[simp] theorem respond_placeRequest (s : State) (r : Request) (rsp : Response) :
    (s.placeRequest r).respond rsp = s.respond rsp := rfl

/-- Going on with a call does not look at the port. -/
theorem continueBulk_respond (s : State) (rsp : Response) (c : BulkCall) (k : BlockKind) (todo : List BlockPos) :
    (s.respond rsp).continueBulk c k todo = (s.continueBulk c k todo).respond rsp := by
  cases todo <;> rfl

/-- Every port of a decoder that was reset is idle (spec/70_reset_and_hazards.md R160). -/
theorem eq_idle_of_mem_resetDecoder {s : State} {p : Port} (h : p ∈ s.resetDecoder.ports) : p = Port.idle := by
  rw [State.ports, State.resetDecoder_port, State.resetDecoder_others] at h
  obtain rfl | ⟨-, -, rfl⟩ := (List.mem_cons.1 h).imp_right List.mem_map.1 <;> rfl

/-! ### The moves -/

/-- A step with no request pending and no bulk call only passes the turn (log 1). -/
theorem step_of_idle {s : State} (hreq : s.port.req = none) (hbulk : s.bulk = none) : step s = .next s.passTurn := by
  rw [step, move, hreq, hbulk]
  rfl

/-- Where the others are none, a step whose move went well answers the move's state. -/
theorem thenPassTurn_alone {u : State} (h : u.others = []) : thenPassTurn (.next u) = .next u :=
  congrArg Host.Outcome.next (u.passTurn_alone h)

/-- Where there is one port, a request presented at it is answered and the turn stays. -/
theorem step_placeRequest_alone {s : State} {r : Request} {rsp : Response} (h : s.others = [])
    (hserve : ∀ s, serve r s = .next (s.respond rsp)) : step (s.placeRequest r) = .next (s.respond rsp) := by
  rw [step_of_request (r := r) rfl, hserve, respond_placeRequest, thenPassTurn_alone (u := s.respond rsp) h]

/-- A move of the driver leaves every port and the compressed buffer as they are (log 6, spec/20_memory.md
section 8). -/
theorem bulkMove_frame {run : BulkRun} {s t : State} (h : bulkMove run s = .next t) :
    t.port = s.port ∧ t.others = s.others ∧ t.cbuf = s.cbuf := by
  rcases bulkMove_cases h with ⟨k, -, -, -, rfl⟩ | ⟨-, -, -, rfl⟩ | ⟨k, -, -, rfl⟩ | ⟨k, -, -, rfl⟩ | ⟨k, -, rfl⟩ |
    ⟨k, p, rest, block, m, -, -, -, rfl⟩
  · exact ⟨rfl, rfl, rfl⟩
  · exact ⟨rfl, rfl, rfl⟩
  · exact ⟨rfl, rfl, rfl⟩
  · exact ⟨State.continueBulk_port .., State.continueBulk_others .., State.continueBulk_cbuf ..⟩
  · exact ⟨rfl, rfl, rfl⟩
  · exact ⟨State.continueBulk_port .., State.continueBulk_others .., State.continueBulk_cbuf ..⟩

/-- A move of the driver does the same whatever response was just given at the port (log 6). -/
theorem bulkMove_respond {run : BulkRun} {s v : State} {rsp : Response}
    (h : bulkMove run (s.respond rsp) = .next v) : ∃ w, bulkMove run s = .next w ∧ v = w.respond rsp := by
  obtain ⟨c, phase⟩ := run
  rcases bulkMove_cases h with ⟨k, rfl, hwf, hkind, rfl⟩ | ⟨rfl, hwf, hkind, rfl⟩ | ⟨k, rfl, hlen, rfl⟩ |
    ⟨k, rfl, hlen, rfl⟩ | ⟨k, rfl, rfl⟩ | ⟨k, p, rest, block, m, rfl, hread, hwrite, rfl⟩
  · exact ⟨_, by simp only [bulkMove, bulkCheckFormat, hwf, hkind, if_true]; rfl, rfl⟩
  · exact ⟨_, by simp only [bulkMove, bulkCheckFormat, hwf, hkind, if_true]; rfl, rfl⟩
  · exact ⟨_, if_pos hlen, rfl⟩
  · exact ⟨_, bulkMove_formatChecked_of_le hlen,
      continueBulk_respond { s with obuf := s.obuf.resize (outputBytes k c) } ..⟩
  · exact ⟨_, rfl, rfl⟩
  · have hread' : s.cbuf.readBytes (blockOffset k c p) (blockByteSize k) = some block := hread
    have hwrite' : writeTile k c p (blockTexels k block) s.obuf = some m := hwrite
    exact ⟨_, by simp only [bulkMove, bulkBlock, hread', hwrite'], continueBulk_respond { s with obuf := m } ..⟩

/-! ### The statements -/

/-- Settles O8: `step_of_request`; an instruction keeps the number of ports, so that with one of them the turn
stays. -/
theorem stepRunsTheDecodedInstruction : Obligations.StepRunsTheDecodedInstruction := by
  unfold Obligations.StepRunsTheDecodedInstruction
  refine ⟨fun s r hreq => step_of_request hreq, fun s r i hreq hdec => ?_⟩
  have hstep : step s = thenPassTurn (exec i s) := by rw [step_of_request hreq, serve_of_decode_ok hdec]
  refine ⟨hstep, fun halone => ?_⟩
  obtain ⟨rsp, -, hexec⟩ := exec_spec i
  rw [hstep, hexec, thenPassTurn_alone (u := s.respond rsp) halone]

/-- Settles O11: `step_of_idle`. -/
theorem idleStepOnlyPassesTheTurn : Obligations.IdleStepOnlyPassesTheTurn := by
  unfold Obligations.IdleStepOnlyPassesTheTurn
  intro s hreq hbulk
  exact ⟨step_of_idle hreq hbulk, fun halone => by rw [step_of_idle hreq hbulk, s.passTurn_alone halone]⟩

/-- Settles O34: by `exec_spec` an operation only gives a response. -/
theorem operationsTouchNothingElse : Obligations.OperationsTouchNothingElse := by
  unfold Obligations.OperationsTouchNothingElse
  intro i s t h
  obtain ⟨rsp, -, hexec⟩ := exec_spec i
  obtain rfl := Host.Outcome.next.inj ((hexec s).symm.trans h)
  exact ⟨rfl, rfl, rfl, rfl, rfl, fun _ => ⟨rfl, rfl⟩, rfl, rfl⟩

/-- Settles O35: a response is chosen by its request alone and replaces what was at the port. -/
theorem noMemoryOfEarlierRequests : Obligations.NoMemoryOfEarlierRequests := by
  unfold Obligations.NoMemoryOfEarlierRequests
  refine ⟨fun s t r r' ht => ?_, fun s t u v r r' halone ht hu hv => ?_⟩
  · obtain ⟨rsp, -, hserve⟩ := serve_spec r
    obtain ⟨rsp', -, hserve'⟩ := serve_spec r'
    obtain rfl := Host.Outcome.next.inj ((hserve s).symm.trans ht)
    rw [hserve', hserve', hserve', respond_respond]
    exact ⟨rfl, rfl⟩
  · obtain ⟨rsp, -, hserve⟩ := serve_spec r
    obtain ⟨rsp', -, hserve'⟩ := serve_spec r'
    obtain rfl := Host.Outcome.next.inj ((step_placeRequest_alone halone hserve).symm.trans ht)
    rw [step_placeRequest_alone (s := s.respond rsp) halone hserve', respond_respond] at hu
    rw [step_placeRequest_alone halone hserve'] at hv
    exact Host.Outcome.next.inj (hu.symm.trans hv)

/-- Settles O36: the three things a step can be; a served request is answered at the port whose turn it is, the
driver and an idle machine touch no port, and passing the turn only reorders them. -/
theorem stepTouchesOneInstance : Obligations.StepTouchesOneInstance := by
  unfold Obligations.StepTouchesOneInstance
  intro s t h
  rcases step_cases h with ⟨r, rsp, hreq, -, rfl⟩ | ⟨run, u, hreq, -, hmove, rfl⟩ | ⟨hreq, -, rfl⟩
  · exact ⟨⟨none, some rsp⟩, State.passTurn_ports _, fun hnone => absurd (hnone.symm.trans hreq) nofun,
      fun _ => ⟨rfl, rfl⟩, State.passTurn_numInstances _⟩
  · obtain ⟨hport, hothers, -⟩ := bulkMove_frame hmove
    refine ⟨s.port, ?_, fun _ => rfl, fun hsome => absurd hreq hsome, ?_⟩
    · rw [State.passTurn_ports, hport, hothers]
    · rw [State.passTurn_numInstances, State.numInstances, State.numInstances, hothers]
  · exact ⟨s.port, State.passTurn_ports s, fun _ => rfl, fun hsome => absurd hreq hsome, State.passTurn_numInstances s⟩

/-- Settles O37: a reset makes every port idle and leaves the buffers; the response is a function of the request
alone. -/
theorem resetLeavesEveryInstanceIdle : Obligations.ResetLeavesEveryInstanceIdle := by
  unfold Obligations.ResetLeavesEveryInstanceIdle
  refine ⟨by decide, fun s => ⟨fun p hp => eq_idle_of_mem_resetDecoder hp, ?_, rfl, rfl⟩, fun s r => ?_⟩
  · rw [State.numInstances, State.resetDecoder_others, List.length_map, State.numInstances]
  · obtain ⟨rsp, -, hserve⟩ := serve_spec r
    exact ⟨rsp, hserve s, hserve s.resetDecoder⟩

/-- Settles O50: a response, a driver move and the turn leave the compressed buffer. -/
theorem compressedBufferIsReadOnly : Obligations.CompressedBufferIsReadOnly := by
  unfold Obligations.CompressedBufferIsReadOnly
  intro s t h
  rcases step_cases h with ⟨r, rsp, -, -, rfl⟩ | ⟨run, u, -, -, hmove, rfl⟩ | ⟨-, -, rfl⟩
  · rw [State.passTurn_cbuf, State.respond_cbuf]
  · obtain ⟨-, -, hcbuf⟩ := bulkMove_frame hmove
    rw [State.passTurn_cbuf, hcbuf]
  · rw [State.passTurn_cbuf]

/-- Settles O51: serving gives a response and no more, and `bulkMove_respond` carries it over the driver's move. -/
theorem requestAndDriverMovesCommute : Obligations.RequestAndDriverMovesCommute := by
  unfold Obligations.RequestAndDriverMovesCommute
  intro s u v r run hu hv
  obtain ⟨rsp, -, hserve⟩ := serve_spec r
  obtain rfl := Host.Outcome.next.inj ((hserve s).symm.trans hu)
  obtain ⟨w, hw, rfl⟩ := bulkMove_respond hv
  exact ⟨w, hw, hserve w⟩

end Sys2Proof.Proofs

/-! ## The invariant of every step (spec/20_memory.md section 5, spec/45_bulk_driver.md section 3) -/

namespace Sys2Proof.Proofs
open Sys2Proof Sys2Proof.Machine Sys2Proof.Claims

/-! ### The invariant, part by part -/

/-- The invariant is: both buffers canonical, every port's response possible, the call in progress consistent. -/
theorem inv_iff {s : State} : s.inv = true ↔ s.cbuf.wf = true ∧ s.obuf.wf = true ∧
    (∀ p ∈ s.ports, p.wf = true) ∧ ∀ run, s.bulk = some run → run.wf s = true := by
  rw [State.inv]
  cases s.bulk <;> simp [and_assoc]

/-- What the invariant says of a call in progress. -/
theorem runWf_of_inv {s : State} {run : BulkRun} (hinv : s.inv = true) (hbulk : s.bulk = some run) :
    run.wf s = true := by
  obtain ⟨-, -, -, hrun⟩ := inv_iff.1 hinv
  exact hrun run hbulk

/-- What it says of a call that has passed check 1. -/
theorem runWf_formatChecked {s : State} {c : BulkCall} {k : BlockKind} :
    BulkRun.wf s ⟨c, .formatChecked k⟩ = true ↔ c.wf = true ∧ kindOf c = some k := by
  simp [BulkRun.wf]

/-- What it says of a call with blocks to do. -/
theorem runWf_blocks {s : State} {c : BulkCall} {k : BlockKind} {todo : List BlockPos} :
    BulkRun.wf s ⟨c, .blocks k todo⟩ = true ↔ c.wf = true ∧ kindOf c = some k ∧ requiredBytes k c ≤ s.cbuf.len ∧
      s.obuf.len = outputBytes k c ∧ ∀ p ∈ todo, p.inGrid c = true := by
  simp [BulkRun.wf, and_assoc]

/-- The invariant looks at a call only through the lengths of the two buffers. -/
theorem runWf_congr {s t : State} (hcbuf : s.cbuf = t.cbuf) (hobuf : s.obuf = t.obuf) (run : BulkRun) :
    run.wf s = run.wf t := by
  simp only [BulkRun.wf, hcbuf, hobuf]

/-! ### What keeps it -/

/-- Passing the turn reorders the ports and changes nothing else. -/
theorem inv_passTurn {s : State} (hinv : s.inv = true) : s.passTurn.inv = true := by
  obtain ⟨hcbuf, hobuf, hports, hrun⟩ := inv_iff.1 hinv
  refine inv_iff.2 ⟨by rwa [State.passTurn_cbuf], by rwa [State.passTurn_obuf], fun p hp => ?_, fun run hbulk => ?_⟩
  · rw [State.passTurn_ports, List.mem_append, List.mem_singleton] at hp
    exact hports p (List.mem_cons.2 hp.symm)
  · rw [runWf_congr s.passTurn_cbuf s.passTurn_obuf]
    exact hrun run (s.passTurn_bulk.symm.trans hbulk)

/-- A response the port can give keeps the invariant. -/
theorem inv_respond {s : State} {rsp : Response} (hinv : s.inv = true) (hrsp : rsp.wf = true) :
    (s.respond rsp).inv = true := by
  obtain ⟨hcbuf, hobuf, hports, hrun⟩ := inv_iff.1 hinv
  refine inv_iff.2 ⟨hcbuf, hobuf, fun p hp => ?_, hrun⟩
  obtain rfl | hp := List.mem_cons.1 hp
  · exact hrsp
  · exact hports p (List.mem_cons_of_mem _ hp)

/-- With canonical buffers and possible responses, a call that has ended leaves nothing to check. -/
theorem inv_returnBulk {s : State} (hinv : s.inv = true) (e : Status) : (s.returnBulk e).inv = true := by
  obtain ⟨hcbuf, hobuf, hports, -⟩ := inv_iff.1 hinv
  exact inv_iff.2 ⟨hcbuf, hobuf, hports, nofun⟩

/-- Check 1 keeps the invariant: the call it lets through is legal and of its kind (R122, R129). -/
theorem inv_formatChecked {s : State} {c : BulkCall} {k : BlockKind} (hinv : s.inv = true) (hwf : c.wf = true)
    (hkind : kindOf c = some k) : State.inv { s with bulk := some ⟨c, .formatChecked k⟩ } = true := by
  obtain ⟨hcbuf, hobuf, hports, -⟩ := inv_iff.1 hinv
  refine inv_iff.2 ⟨hcbuf, hobuf, hports, fun run hbulk => ?_⟩
  obtain rfl := Option.some.inj hbulk
  exact runWf_formatChecked.2 ⟨hwf, hkind⟩

/-- A new output buffer of the call's length, and blocks of its grid left to do, keep the invariant (R123, R124). -/
theorem inv_continueBulk {s : State} {c : BulkCall} {k : BlockKind} {todo : List BlockPos} {m : Memory}
    (hinv : s.inv = true) (hm : m.wf = true) (hwf : c.wf = true) (hkind : kindOf c = some k)
    (hreq : requiredBytes k c ≤ s.cbuf.len) (hlen : m.len = outputBytes k c) (hgrid : ∀ p ∈ todo, p.inGrid c = true) :
    (State.continueBulk { s with obuf := m } c k todo).inv = true := by
  obtain ⟨hcbuf, -, hports, -⟩ := inv_iff.1 hinv
  cases todo with
  | nil => exact inv_iff.2 ⟨hcbuf, hm, hports, nofun⟩
  | cons p rest =>
    refine inv_iff.2 ⟨hcbuf, hm, hports, fun run hbulk => ?_⟩
    obtain rfl := Option.some.inj hbulk
    exact runWf_blocks.2 ⟨hwf, hkind, hreq, hlen, hgrid⟩

/-- Every move of the driver keeps the invariant. -/
theorem inv_bulkMove {run : BulkRun} {s t : State} (hinv : s.inv = true) (hbulk : s.bulk = some run)
    (h : bulkMove run s = .next t) : t.inv = true := by
  obtain ⟨c, phase⟩ := run
  rcases bulkMove_cases h with ⟨k, -, hwf, hkind, rfl⟩ | ⟨-, -, -, rfl⟩ | ⟨k, -, -, rfl⟩ | ⟨k, rfl, hreq, rfl⟩ |
    ⟨k, -, rfl⟩ | ⟨k, p, rest, block, m, rfl, hread, hwrite, rfl⟩
  · exact inv_formatChecked hinv hwf hkind
  · exact inv_returnBulk hinv _
  · exact inv_returnBulk hinv _
  · obtain ⟨hwf, hkind⟩ := runWf_formatChecked.1 (runWf_of_inv hinv hbulk)
    exact inv_continueBulk hinv (Memory.resize_wf (inv_obuf hinv) _) hwf hkind hreq (Memory.resize_len _ _)
      fun p hp => mem_blockGrid.1 hp
  · exact inv_returnBulk hinv _
  · obtain ⟨hwf, hkind, hreq, hlen, hgrid⟩ := inv_blocks hinv hbulk
    obtain ⟨m', hwrite', hlen', hm', -⟩ := writeTile_spec (hgrid p List.mem_cons_self) block (inv_obuf hinv) hlen
    obtain rfl := Option.some.inj (hwrite'.symm.trans hwrite)
    exact inv_continueBulk hinv hm' hwf hkind hreq (hlen'.trans hlen) fun q hq => hgrid q (List.mem_cons_of_mem p hq)

/-- Settles O39: a response, a move of the driver and the turn each keep the invariant. -/
theorem everyStepKeepsTheInvariant : Obligations.EveryStepKeepsTheInvariant := by
  unfold Obligations.EveryStepKeepsTheInvariant
  intro s t hinv h
  rcases step_cases h with ⟨r, rsp, -, hrsp, rfl⟩ | ⟨run, u, -, hbulk, hmove, rfl⟩ | ⟨-, -, rfl⟩
  · exact inv_passTurn (inv_respond hinv hrsp)
  · exact inv_passTurn (inv_bulkMove hinv hbulk hmove)
  · exact inv_passTurn hinv

/-- Settles O38: at reset there is nothing in the buffers, no response and no call. -/
theorem invariantHoldsAtReset : Obligations.InvariantHoldsAtReset := by
  unfold Obligations.InvariantHoldsAtReset
  decide

/-! ### No access leaves its buffer -/

/-- Under the invariant a move of the driver answers a next state, or is the first move of a call of a size that has
no meaning (R129). -/
theorem bulkMove_next_or_refused {s : State} {run : BulkRun} (hinv : s.inv = true) (hbulk : s.bulk = some run) :
    (∃ u, bulkMove run s = .next u) ∨ (run.phase = .start ∧ run.call.wf = false ∧
      bulkMove run s = .refused (.bulkSize run.call.width run.call.height)) := by
  obtain ⟨c, phase⟩ := run
  cases phase with
  | start =>
    cases hwf : c.wf with
    | false => exact .inr ⟨rfl, rfl, by simp only [bulkMove, bulkCheckFormat, hwf]; rfl⟩
    | true =>
      left
      simp only [bulkMove, bulkCheckFormat, hwf, if_true]
      cases kindOf c <;> exact ⟨_, rfl⟩
  | formatChecked k =>
    left
    simp only [bulkMove, bulkCheckLength]
    split <;> exact ⟨_, rfl⟩
  | blocks k todo =>
    cases todo with
    | nil => exact .inl ⟨_, rfl⟩
    | cons p rest =>
      obtain ⟨_, _, -, -, hmove, -⟩ := bulkBlock_spec hinv hbulk
      exact .inl ⟨_, hmove⟩

/-- Settles O40: a request is always answered, an idle machine waits, and the driver's accesses stay inside by
`bulkMove_next_or_refused`. -/
theorem noAccessLeavesItsBuffer : Obligations.NoAccessLeavesItsBuffer := by
  unfold Obligations.NoAccessLeavesItsBuffer
  intro s hinv
  cases hreq : s.port.req with
  | some r =>
    obtain ⟨rsp, -, hserve⟩ := serve_spec r
    exact .inl ⟨_, by rw [step_of_request hreq, hserve]; rfl⟩
  | none =>
    cases hbulk : s.bulk with
    | none => exact .inl ⟨_, step_of_idle hreq hbulk⟩
    | some run =>
      rw [step_of_bulk hreq hbulk]
      obtain ⟨u, hu⟩ | ⟨hphase, hwf, hrefused⟩ := bulkMove_next_or_refused hinv hbulk
      · exact .inl ⟨_, by rw [hu]; rfl⟩
      · obtain ⟨c, phase⟩ := run
        obtain rfl := hphase
        exact .inr ⟨c, rfl, hwf, by rw [hrefused]; rfl⟩

end Sys2Proof.Proofs

/-! ## Laws of the function units (spec/40_depth_convert.md section 3, spec/41_palette.md section 1,
spec/95_test_vectors.md sections 1, 8 and 9) -/

namespace Sys2Proof.Proofs
open Sys2Proof Sys2Proof.Machine Sys2Proof.Claims

/-! ### Depth conversion -/

/-- `reduce` undoes `expand` at 5 bits. -/
theorem reduce5_expand5 (n : BitVec 5) : reduce5 (expand5 n) = n := by
  have hn := n.isLt
  apply BitVec.eq_of_toNat_eq
  rw [toNat_reduce5, toNat_expand5]
  omega

/-- `reduce` undoes `expand` at 6 bits. -/
theorem reduce6_expand6 (n : BitVec 6) : reduce6 (expand6 n) = n := by
  have hn := n.isLt
  apply BitVec.eq_of_toNat_eq
  rw [toNat_reduce6, toNat_expand6]
  omega

/-- Settles O24: each law is linear arithmetic over the values of the four conversions; the extreme steps and
distances are reached at 0, 1, 2 and 4. -/
theorem depthConversionLaws : Obligations.DepthConversionLaws := by
  unfold Obligations.DepthConversionLaws
  refine ⟨reduce5_expand5, reduce6_expand6, fun n m h => ?_, ⟨0, 1, by decide⟩, fun n m h => ?_, ⟨0, 1, by decide⟩,
    fun n m h => ?_, fun n m h => ?_, fun m => ?_, fun m => ?_, ⟨4, by decide⟩, ⟨2, by decide⟩⟩
  · rw [BitVec.lt_def] at h
    rw [toNat_expand5, toNat_expand5]
    omega
  · rw [BitVec.lt_def] at h
    rw [toNat_expand6, toNat_expand6]
    omega
  · rw [BitVec.le_def] at h ⊢
    rw [toNat_reduce5, toNat_reduce5]
    omega
  · rw [BitVec.le_def] at h ⊢
    rw [toNat_reduce6, toNat_reduce6]
    omega
  · have hm := m.isLt
    rw [toNat_expand5, toNat_reduce5]
    omega
  · have hm := m.isLt
    rw [toNat_expand6, toNat_reduce6]
    omega

/-! ### The weighted mix and the tables made of it -/

/-- A mix lies between its two values. -/
theorem mix_between {w0 w1 : Nat} (h : 0 < w0 + w1) (v0 v1 : Byte) :
    min v0.toNat v1.toNat ≤ (mix w0 v0 w1 v1).toNat ∧ (mix w0 v0 w1 v1).toNat ≤ max v0.toNat v1.toNat := by
  rw [toNat_mix h]
  exact mean_between h

/-- A mix of equal values is that value. -/
theorem mix_self {w0 w1 : Nat} (h : 0 < w0 + w1) (v : Byte) : mix w0 v w1 v = v := by
  apply BitVec.eq_of_toNat_eq
  rw [toNat_mix h, ← Nat.add_mul, Nat.mul_div_cancel_left _ h]

/-- A mix does not change when its two pairs are exchanged. -/
theorem mix_comm (w0 w1 : Nat) (v0 v1 : Byte) : mix w0 v0 w1 v1 = mix w1 v1 w0 v0 := by
  rw [mix, mix, Nat.add_comm, Nat.add_comm w0]

/-- Settles O25: `toNat_mix` and the three properties derived from it. -/
theorem mixLaws : Obligations.MixLaws := by
  unfold Obligations.MixLaws
  intro w0 w1 v0 v1 h
  obtain ⟨hmin, hmax⟩ := mix_between h v0 v1
  exact ⟨toNat_mix h v0 v1, hmin, hmax, mix_self h v0, mix_comm w0 w1 v0 v1⟩

/-- A channel of `mix3` is the mix of that channel (R81). -/
theorem channel_mix3 {ch : Rgb → Byte} (hch : ch ∈ [Rgb.r, Rgb.g, Rgb.b]) (w0 w1 : Nat) (p q : Rgb) :
    ch (mix3 w0 p w1 q) = mix w0 (ch p) w1 (ch q) := by
  simp only [List.mem_cons, List.not_mem_nil, or_false] at hch
  obtain rfl | rfl | rfl := hch <;> rfl

/-- The colours of the table of PAL4 are the two references and their two mixes (R83). -/
theorem pal4_rgb (c0 c1 : PackedColor16) :
    ((pal4 c0 c1).get 0).rgb = unpack565 c0 ∧ ((pal4 c0 c1).get 1).rgb = unpack565 c1 ∧
    ((pal4 c0 c1).get 2).rgb = mix3 2 (unpack565 c0) 1 (unpack565 c1) ∧
    ((pal4 c0 c1).get 3).rgb = mix3 1 (unpack565 c0) 2 (unpack565 c1) := ⟨rfl, rfl, rfl, rfl⟩

/-- The mixed entries of the 6-step ramp: entry `k` has weights `8 - k` and `k - 1` (R101). -/
theorem ramp6Step_get (a0 a1 : Byte) (k : Fin 8) (hk : 2 ≤ k.val) :
    (ramp6Step a0 a1).get k = mix (8 - k.val) a0 (k.val - 1) a1 := by
  match k with
  | 0 | 1 => simp at hk
  | 2 | 3 | 4 | 5 | 6 | 7 => rfl

/-- The mixed entries of the 4-step ramp: entry `k` has weights `6 - k` and `k - 1` (R101). -/
theorem ramp4Step_get (a0 a1 : Byte) (k : Fin 8) (hk : 2 ≤ k.val) (hk' : k.val < 6) :
    (ramp4Step a0 a1).get k = mix (6 - k.val) a0 (k.val - 1) a1 := by
  match k with
  | 0 | 1 => simp at hk
  | 2 | 3 | 4 | 5 => rfl
  | 6 | 7 => simp at hk'

/-- The first two entries of the ramp are its references, whichever ramp it is (R101). -/
theorem ramp8_references (a0 a1 : Byte) : (ramp8 a0 a1).get 0 = a0 ∧ (ramp8 a0 a1).get 1 = a1 := by
  rw [ramp8]
  split <;> exact ⟨rfl, rfl⟩

/-- Every other entry but the two constants is a mix of the references (R101). -/
theorem ramp8_eq_mix {a0 a1 : Byte} {k : Fin 8} (hk : 2 ≤ k.val) (h : a0.toNat > a1.toNat ∨ k.val < 6) :
    ∃ w0 w1, 0 < w0 + w1 ∧ (ramp8 a0 a1).get k = mix w0 a0 w1 a1 := by
  by_cases hgt : a0.toNat > a1.toNat
  · rw [ramp8_of_gt hgt, ramp6Step_get a0 a1 k hk]
    exact ⟨_, _, by omega, rfl⟩
  · rw [ramp8_of_le (Nat.le_of_not_gt hgt), ramp4Step_get a0 a1 k hk (h.resolve_left hgt)]
    exact ⟨_, _, by omega, rfl⟩

/-- Settles O26: an entry is one of the references or a mix of them, and a mix lies between its values. -/
theorem tableEntriesLieBetweenReferences : Obligations.TableEntriesLieBetweenReferences := by
  unfold Obligations.TableEntriesLieBetweenReferences
  refine ⟨fun c0 c1 k ch hch => ?_, fun a0 a1 k h => ?_⟩
  · obtain ⟨h0, h1, h2, h3⟩ := pal4_rgb c0 c1
    match k with
    | 0 => rw [h0]; exact ⟨Nat.min_le_left .., Nat.le_max_left ..⟩
    | 1 => rw [h1]; exact ⟨Nat.min_le_right .., Nat.le_max_right ..⟩
    | 2 => rw [h2, channel_mix3 hch]; exact mix_between (by decide) _ _
    | 3 => rw [h3, channel_mix3 hch]; exact mix_between (by decide) _ _
  · by_cases hk : 2 ≤ k.val
    · obtain ⟨w0, w1, hw, hget⟩ := ramp8_eq_mix hk h
      rw [hget]
      exact mix_between hw a0 a1
    · obtain ⟨h0, h1⟩ := ramp8_references a0 a1
      obtain rfl | rfl : k = 0 ∨ k = 1 := by omega
      · rw [h0]; exact ⟨Nat.min_le_left .., Nat.le_max_left ..⟩
      · rw [h1]; exact ⟨Nat.min_le_right .., Nat.le_max_right ..⟩

/-- Settles O30: a closed run of the ramp, the same in every state. -/
theorem fullRampFallsStrictly : Obligations.FullRampFallsStrictly := by
  unfold Obligations.FullRampFallsStrictly
  exact fun s => ⟨_, exec_ramp8 255 0 s, by decide, by decide⟩

/-! ### The transparency of BC1 -/

/-- Every entry of the 4-distinct-color table is opaque (R83). -/
theorem pal4_opaque (c0 c1 : PackedColor16) (k : Fin 4) : ((pal4 c0 c1).get k).a = 255 := by
  match k with
  | 0 | 1 | 2 | 3 => rfl

/-- Every entry of the 3-color table but the last is opaque (R85). -/
theorem pal3_opaque (c0 c1 : PackedColor16) {k : Fin 4} (hk : k ≠ 3) : ((pal3 c0 c1).get k).a = 255 := by
  match k with
  | 0 | 1 | 2 => rfl
  | 3 => exact absurd rfl hk

/-- Settles O28: the comparison chooses the table; all entries of the one and all but the last of the other are
opaque. -/
theorem bc1TransparencyOnlyInThreeColorMode : Obligations.Bc1TransparencyOnlyInThreeColorMode := by
  unfold Obligations.Bc1TransparencyOnlyInThreeColorMode
  intro block i
  obtain ⟨k, hk⟩ : ∃ k : Fin 4, k.val = block.colorIndices.toNat / 2 ^ (2 * i.val) % 4 :=
    ⟨⟨_, Nat.mod_lt _ (by decide)⟩, rfl⟩
  rw [decBc1a_eq_get hk, ← hk]
  refine ⟨fun hgt => ?_, fun hle => ⟨fun h3 => ?_, fun h3 => ?_⟩⟩
  · rw [palBc1_of_gt hgt, pal4_opaque]
  · obtain rfl : k = 3 := Fin.ext h3
    rw [palBc1_of_le hle]
    rfl
  · rw [palBc1_of_le hle, pal3_opaque _ _ fun h => h3 (congrArg Fin.val h)]

/-! ### The block decodes as compositions of unit requests -/

/-- Byte `i` of one-byte lanes is lane `i` (R54, R57). -/
theorem getD_laneBytes {w : Nat} (f : Lanes (BitVec w)) (i : Fin 16) :
    (laneBytes zextByte f).getD i.val 0 = (f i).setWidth 8 := by
  rw [laneBytes_zext, List.getD_eq_getElem?_getD, List.getElem?_ofFn, dif_pos i.isLt, Option.getD_some]

/-- As a number it is the lane's number, no width being lost. -/
theorem toNat_getD_laneBytes {w : Nat} (hw : w ≤ 8) (f : Lanes (BitVec w)) (i : Fin 16) :
    ((laneBytes zextByte f).getD i.val 0).toNat = (f i).toNat := by
  rw [getD_laneBytes, BitVec.toNat_setWidth_of_le hw]

/-- The colour bytes of the entry an index selects, in a serialised table of colours (R56). -/
theorem tableBytes_rgb (table : ColorTable) (ix : BitVec 2) :
    ((tableBytes Rgba.bytes table).drop (4 * ix.toNat)).take 3 = (lookup table ix).rgb.bytes := by
  have hpiece := congrArg (List.take 3) (tableBytes_piece Rgba.bytes 4 Rgba.bytes_length table ix.toFin)
  rwa [List.take_take] at hpiece

/-- The byte of the entry an index selects, in a serialised table of alphas (R56). -/
theorem tableBytes_alpha (table : AlphaTable) (ix : BitVec 3) :
    ((tableBytes zextByte table).drop ix.toNat).take 1 = [lookup table ix] := by
  have hpiece := tableBytes_piece zextByte 1 zextByte_length table ix.toFin
  rwa [Nat.one_mul, zextByte, BitVec.setWidth_eq] at hpiece

/-- The byte of lane `i` of explicit alphas (R54). -/
theorem laneBytes_alpha (f : Lanes Byte) (i : Fin 16) : ((laneBytes zextByte f).drop i.val).take 1 = [f i] := by
  have hpiece := laneBytes_piece zextByte 1 zextByte_length f i
  rwa [Nat.one_mul, zextByte, BitVec.setWidth_eq] at hpiece

/-- Settles O31: the colour bytes of a texel are those of its table entry, followed by its alpha. -/
theorem blockDecodesComposeTheUnits : Obligations.BlockDecodesComposeTheUnits := by
  unfold Obligations.BlockDecodesComposeTheUnits
  refine ⟨fun b s => ⟨_, _, _, _, exec_decBc2 b s, exec_pal4 _ _ s, exec_idx2 _ s, exec_alpha4 _ s, fun i => ?_⟩,
    fun b s => ⟨_, _, _, _, _, exec_decBc3 b s, exec_pal4 _ _ s, exec_idx2 _ s, rfl, exec_idx3 _ s, fun i => ?_⟩⟩
  · rw [rgbaTile_texel, toNat_getD_laneBytes (by decide), tableBytes_rgb, laneBytes_alpha]
    rfl
  · rw [rgbaTile_texel, toNat_getD_laneBytes (by decide), toNat_getD_laneBytes (by decide), tableBytes_rgb,
      tableBytes_alpha]
    rfl

end Sys2Proof.Proofs

/-! ## The checks and the geometry of a bulk call (spec/45_bulk_driver.md sections 2 and 3) -/

namespace Sys2Proof.Proofs
open Sys2Proof Sys2Proof.Machine Sys2Proof.Claims

/-! ### The legal sizes and formats of a call -/

/-- A call is legal exactly when its sides are multiples of 4 (R129). -/
theorem bulkCall_wf_iff {c : BulkCall} : c.wf = true ↔ c.width % 4 = 0 ∧ c.height % 4 = 0 := by
  rw [BulkCall.wf, Bool.and_eq_true, beq_iff_eq, beq_iff_eq]
  rfl

/-- Settles O43: one case per format tag. -/
theorem formatTagSelectsTheDecoder : Obligations.FormatTagSelectsTheDecoder := by
  unfold Obligations.FormatTagSelectsTheDecoder
  rintro ⟨fmt, alpha, width, height⟩
  match fmt with
  | 0 => simp [kindOf]
  | 1 => cases alpha <;> simp [kindOf]
  | 2 => simp [kindOf]
  | 3 => simp [kindOf]
  | n + 4 => simp [kindOf]

/-- A format that is none of the three selects no decoder (R121). -/
theorem kindOf_eq_none {c : BulkCall} (h1 : c.fmt ≠ 1) (h2 : c.fmt ≠ 2) (h3 : c.fmt ≠ 3) : kindOf c = none := by
  obtain ⟨-, -, -, -, hnone⟩ := formatTagSelectsTheDecoder c
  exact hnone.2 ⟨h1, h2, h3⟩

/-- Format 1 selects a decoder of 8-byte blocks, with alpha or without (spec/30_encoding.md R40). -/
theorem kindOf_of_fmt_one {c : BulkCall} (h : c.fmt = 1) : ∃ k, kindOf c = some k ∧ blockByteSize k = 8 := by
  obtain ⟨hbc1, hbc1a, -⟩ := formatTagSelectsTheDecoder c
  cases halpha : c.alpha with
  | false => exact ⟨.bc1, hbc1.2 ⟨h, halpha⟩, rfl⟩
  | true => exact ⟨.bc1a, hbc1a.2 ⟨h, halpha⟩, rfl⟩

/-- Formats 2 and 3 select a decoder of 16-byte blocks (spec/30_encoding.md R40). -/
theorem kindOf_of_fmt_two_or_three {c : BulkCall} (h : c.fmt = 2 ∨ c.fmt = 3) :
    ∃ k, kindOf c = some k ∧ blockByteSize k = 16 := by
  obtain ⟨-, -, hbc2, hbc3, -⟩ := formatTagSelectsTheDecoder c
  obtain h | h := h
  · exact ⟨.bc2, hbc2.2 h, rfl⟩
  · exact ⟨.bc3, hbc3.2 h, rfl⟩

/-! ### The two checks -/

/-- A call of a size that has no meaning is refused in its first move (R129). -/
theorem bulkMove_start_of_not_wf {c : BulkCall} (h : c.wf = false) (s : State) :
    bulkMove ⟨c, .start⟩ s = .refused (.bulkSize c.width c.height) := by
  simp only [bulkMove, bulkCheckFormat, h, Bool.false_eq_true, if_false]

/-- Check 1 passes for a supported format (R122). -/
theorem bulkMove_start_of_some {c : BulkCall} {k : BlockKind} (hwf : c.wf = true) (hkind : kindOf c = some k)
    (s : State) : bulkMove ⟨c, .start⟩ s = .next { s with bulk := some ⟨c, .formatChecked k⟩ } := by
  simp only [bulkMove, bulkCheckFormat, hwf, hkind, if_true]

/-- Check 1 fails for an unsupported format (R122). -/
theorem bulkMove_start_of_none {c : BulkCall} (hwf : c.wf = true) (hkind : kindOf c = none) (s : State) :
    bulkMove ⟨c, .start⟩ s = .next (s.returnBulk .unsupportedFormat) := by
  simp only [bulkMove, bulkCheckFormat, hwf, hkind, if_true]

/-- Check 2 fails for a compressed buffer that is too short (R122). -/
theorem bulkMove_formatChecked_of_lt {k : BlockKind} {c : BulkCall} {s : State} (h : s.cbuf.len < requiredBytes k c) :
    bulkMove ⟨c, .formatChecked k⟩ s = .next (s.returnBulk .truncatedInput) :=
  if_pos h

/-! ### Steps of a machine that holds no request -/

/-- No request is pending at the port whose turn it is. -/
theorem port_req_of_allIdle {s : State} (h : s.allIdle = true) : s.port.req = none := by
  rw [State.allIdle, State.ports, List.all_cons, Bool.and_eq_true, Option.isNone_iff_eq_none] at h
  exact h.1

/-- Passing the turn presents no request. -/
theorem allIdle_passTurn {s : State} (h : s.allIdle = true) : s.passTurn.allIdle = true := by
  rw [State.allIdle, State.passTurn_ports]
  simpa [State.allIdle, State.ports, and_comm] using h

/-- A move of the driver presents no request. -/
theorem allIdle_of_bulkMove {run : BulkRun} {s t : State} (h : bulkMove run s = .next t) (hidle : s.allIdle = true) :
    t.allIdle = true := by
  obtain ⟨hport, hothers, -⟩ := bulkMove_frame h
  rwa [State.allIdle, State.ports, hport, hothers]

/-- With no request pending, a move of the driver is a step, after which the turn passes. -/
theorem step_of_bulkMove {s u : State} {run : BulkRun} (hidle : s.allIdle = true) (hbulk : s.bulk = some run)
    (hmove : bulkMove run s = .next u) : step s = .next u.passTurn := by
  rw [step_of_bulk (port_req_of_allIdle hidle) hbulk, hmove]
  rfl

/-- The first of several steps. -/
theorem steps_succ {s t : State} (h : step s = .next t) (n : Nat) : steps (n + 1) s = steps n t := by
  rw [steps, h]

/-- Settles O41: the refusal of `bulkMove_start_of_not_wf`. -/
theorem bulkRefusesOtherSizes : Obligations.BulkRefusesOtherSizes := by
  unfold Obligations.BulkRefusesOtherSizes
  intro s c hreq hbulk hsize
  have hwf : c.wf = false := Bool.eq_false_iff.2 fun h => by
    obtain ⟨hwidth, hheight⟩ := bulkCall_wf_iff.1 h
    omega
  rw [step_of_bulk hreq hbulk, bulkMove_start_of_not_wf hwf]
  rfl

/-- A call that fails check 2 returns after its two moves, the buffers as they were (R122). -/
theorem returnsAtOnce_truncatedInput {s : State} {c : BulkCall} {k : BlockKind} (hidle : s.allIdle = true)
    (hbulk : s.bulk = some ⟨c, .start⟩) (hwf : c.wf = true) (hkind : kindOf c = some k)
    (hlen : s.cbuf.len < requiredBytes k c) : returnsAtOnce s .truncatedInput := by
  have hmove := bulkMove_start_of_some hwf hkind s
  have hstep := step_of_bulkMove hidle hbulk hmove
  have hmove' := bulkMove_formatChecked_of_lt (s := State.passTurn { s with bulk := some ⟨c, .formatChecked k⟩ })
    (by rwa [State.passTurn_cbuf])
  have hstep' := step_of_bulkMove (allIdle_passTurn (allIdle_of_bulkMove hmove hidle)) (State.passTurn_bulk _) hmove'
  exact ⟨2, _, le_rfl, by rw [steps_succ hstep, steps_succ hstep', steps], by simp, by simp, by simp, by simp⟩

/-- Settles O42: check 1 returns in the first move, check 2 in the second. -/
theorem bulkChecksInOrderWriteNothing : Obligations.BulkChecksInOrderWriteNothing := by
  unfold Obligations.BulkChecksInOrderWriteNothing
  refine ⟨fun s c hidle hbulk hwidth hheight h1 h2 h3 => ?_, fun s c hidle hbulk hwidth hheight hlen => ?_⟩
  · have hmove := bulkMove_start_of_none (bulkCall_wf_iff.2 ⟨hwidth, hheight⟩) (kindOf_eq_none h1 h2 h3) s
    exact ⟨1, _, by decide, by rw [steps_succ (step_of_bulkMove hidle hbulk hmove), steps], by simp, by simp, by simp,
      by simp⟩
  · have hwf := bulkCall_wf_iff.2 ⟨hwidth, hheight⟩
    obtain ⟨hfmt, hlen⟩ | ⟨hfmt, hlen⟩ := hlen
    · obtain ⟨k, hkind, hsize⟩ := kindOf_of_fmt_one hfmt
      exact returnsAtOnce_truncatedInput hidle hbulk hwf hkind (by rwa [requiredBytes, hsize])
    · obtain ⟨k, hkind, hsize⟩ := kindOf_of_fmt_two_or_three hfmt
      exact returnsAtOnce_truncatedInput hidle hbulk hwf hkind (by rwa [requiredBytes, hsize])

/-! ### Where the bytes of the image lie -/

/-- Texel `(x, y)` of a block is the pixel in column `bc*4 + x` and row `br*4 + y` (R125). -/
theorem texelOffset_texelIndex (k : BlockKind) (c : BulkCall) (p : BlockPos) (x y : Fin 4) :
    texelOffset k c p (texelIndex x y) =
      ((p.br * 4 + y.val) * c.width + p.bc * 4 + x.val) * bytesPerPixel k := by
  have hrow : (y.val * 4 + x.val) / 4 = y.val := by omega
  have hcol : (y.val * 4 + x.val) % 4 = x.val := by omega
  rw [texelOffset, texelIndex, hrow, hcol, Nat.add_assoc]

/-- The block of the pixel in column `px` and row `py`. -/
def blockOfPixel (px py : Nat) : BlockPos := ⟨py / 4, px / 4⟩

/-- The texel of that block the pixel is. -/
def texelOfPixel (px py : Nat) : Fin 16 :=
  texelIndex ⟨px % 4, Nat.mod_lt _ (by decide)⟩ ⟨py % 4, Nat.mod_lt _ (by decide)⟩

/-- The pixel in column `px` and row `py` is pixel number `py*width + px` of the image (R125). -/
theorem texelOffset_of_pixel (k : BlockKind) (c : BulkCall) (px py : Nat) :
    texelOffset k c (blockOfPixel px py) (texelOfPixel px py) = (py * c.width + px) * bytesPerPixel k := by
  rw [texelOfPixel, texelOffset_texelIndex, blockOfPixel, Nat.div_add_mod', Nat.add_assoc, Nat.div_add_mod']

/-- In an image whose sides are multiples of 4, the block of a pixel of the image lies in the grid. -/
theorem inGrid_of_pixel {c : BulkCall} (hwidth : c.width % 4 = 0) (hheight : c.height % 4 = 0) {px py : Nat}
    (hpx : px < c.width) (hpy : py < c.height) : (blockOfPixel px py).inGrid c = true :=
  inGrid_iff.2 ⟨Nat.div_lt_div_of_lt_of_dvd (Nat.dvd_of_mod_eq_zero hheight) hpy,
    Nat.div_lt_div_of_lt_of_dvd (Nat.dvd_of_mod_eq_zero hwidth) hpx⟩

/-- Settles O46: byte `a` is byte `a mod n` of pixel `a / n`, `n` the bytes of a pixel, whose block `inGrid_of_pixel`
finds; bytes of the grid lie inside and apart by `texelOffset_le` and `texelByte_injective`. -/
theorem everyOutputByteBelongsToOneBlock : Obligations.EveryOutputByteBelongsToOneBlock := by
  unfold Obligations.EveryOutputByteBelongsToOneBlock
  refine fun k c hwidth hheight => ⟨fun a ha => ?_, fun p q i i' j j' hp hq hj hj' => ⟨?_, fun h => ?_⟩⟩
  · have hpixel : a / bytesPerPixel k < c.width * c.height := by
      rw [Nat.div_lt_iff_lt_mul (bytesPerPixel_pos k), Nat.mul_comm c.width, Nat.mul_assoc]
      exact ha
    have hcol : a / bytesPerPixel k % c.width < c.width :=
      Nat.mod_lt _ (Nat.pos_of_ne_zero fun h0 => by simp [h0] at hpixel)
    have hrow : a / bytesPerPixel k / c.width < c.height := Nat.div_lt_of_lt_mul hpixel
    refine ⟨_, texelOfPixel (a / bytesPerPixel k % c.width) (a / bytesPerPixel k / c.width), a % bytesPerPixel k,
      mem_blockGrid.2 (inGrid_of_pixel hwidth hheight hcol hrow), Nat.mod_lt _ (bytesPerPixel_pos k), ?_⟩
    rw [texelOffset_of_pixel, Nat.div_add_mod', Nat.div_add_mod']
  · exact lt_of_lt_of_le (Nat.add_lt_add_left hj _) (texelOffset_le (mem_blockGrid.1 hp) i)
  · exact texelByte_injective (mem_blockGrid.1 hp) (mem_blockGrid.1 hq) hj hj' h

end Sys2Proof.Proofs

/-! ## The tile of a block is the response of its decode request (spec/45_bulk_driver.md section 1) -/

namespace Sys2Proof.Proofs
open Sys2Proof Sys2Proof.Machine Sys2Proof.Claims

/-- Zero bytes at the end do not change the number a byte list spells. -/
theorem leNat_append_zeros (block : List Byte) (n : Nat) : leNat (block ++ List.replicate n 0) = leNat block := by
  have hzeros : leNat (List.replicate n 0) = 0 := by
    induction n with
    | zero => rfl
    | succ n ih => rw [List.replicate_succ, leNat, ih]; rfl
  rw [leNat_append, hzeros, Nat.mul_zero, Nat.add_zero]

/-- The code of an operation and a zero-padded operand of sixteen bytes decode to the operation with the operand the
bytes spell (R50). -/
theorem decode_code_padded (o : Op) {block : List Byte} {n : Nat} (h : block.length + n = 16) :
    decode (o.code :: (block ++ List.replicate n 0)) = .ok (operandFields (BitVec.ofNat 128 (leNat block)) o) := by
  rw [decode_of_length (by simp [h]), Request.ofBytes, leNat_append_zeros, decodeRequest_code]

/-- A block of any kind fits the operand of a request (spec/30_encoding.md R40, R50). -/
theorem blockByteSize_le (k : BlockKind) : blockByteSize k ≤ 16 := by
  cases k <;> decide

/-- The low half of an operand is the number of its first eight bytes. -/
theorem extract_lowHalf_ofNat (v : Nat) : (BitVec.ofNat 128 v).extractLsb' 0 64 = BitVec.ofNat 64 v := by
  rw [← BitVec.setWidth_eq_extractLsb' (by omega), BitVec.setWidth_ofNat_of_le (by omega)]

/-- Serialised lanes are their bytes one after the other (R54). -/
theorem laneBytes_eq_flatten {α : Type} (ser : α → List Byte) (f : Lanes α) :
    laneBytes ser f = (List.ofFn fun i => ser (f i)).flatten := by
  rw [laneBytes, List.flatMap_def, List.map_ofFn]
  rfl

/-- Settles O45: the request's operand is the integer of the block, whose tile the driver writes. -/
theorem driverTilesAreBlockDecodeResponses : Obligations.DriverTilesAreBlockDecodeResponses := by
  unfold Obligations.DriverTilesAreBlockDecodeResponses
  intro k block hlen
  have hpad : ∀ o, decode (o.code :: (block ++ List.replicate (16 - blockByteSize k) 0)) =
      .ok (operandFields (BitVec.ofNat 128 (leNat block)) o) := fun o =>
    decode_code_padded o (by rw [hlen, Nat.add_sub_of_le (blockByteSize_le k)])
  cases k with
  | bc1 =>
    refine ⟨_, hpad .decBc1, fun s => ?_⟩
    rw [operandFields, extract_lowHalf_ofNat, exec_decBc1, laneBytes_eq_flatten]
    rfl
  | bc1a =>
    refine ⟨_, hpad .decBc1a, fun s => ?_⟩
    rw [operandFields, extract_lowHalf_ofNat, exec_decBc1a, laneBytes_eq_flatten]
    rfl
  | bc2 =>
    refine ⟨_, hpad .decBc2, fun s => ?_⟩
    rw [operandFields, exec_decBc2, laneBytes_eq_flatten]
    rfl
  | bc3 =>
    refine ⟨_, hpad .decBc3, fun s => ?_⟩
    rw [operandFields, exec_decBc3, laneBytes_eq_flatten]
    rfl

end Sys2Proof.Proofs

/-! ## Block moves: one tile, a whole image, any order (spec/45_bulk_driver.md sections 3 and 4) -/

namespace Sys2Proof.Proofs
open Sys2Proof Sys2Proof.Machine Sys2Proof.Claims

/-! ### What the tiles of several blocks leave in the output buffer -/

/-- Buffer `m` is the output buffer `obuf` with the tiles of the blocks `todo` of `cbuf` written over it. -/
structure TilesWritten (c : BulkCall) (k : BlockKind) (cbuf obuf : Memory) (todo : List BlockPos) (m : Memory) :
    Prop where
  len : m.len = obuf.len
  wf : m.wf = true
  frame : ∀ a, (∀ p ∈ todo, ¬ inTile k c p a) → m.read a = obuf.read a
  texel : ∀ p ∈ todo, ∀ block, cbuf.readBytes (blockOffset k c p) (blockByteSize k) = some block →
    ∀ (i : Fin 16) (j : Nat), j < bytesPerPixel k → m.read (texelOffset k c p i + j) = (blockTexels k block i)[j]?

section
variable {c : BulkCall} {k : BlockKind} {cbuf obuf : Memory}

/-- With no block to write the buffer is as it was. -/
theorem tilesWritten_nil (hwf : obuf.wf = true) : TilesWritten c k cbuf obuf [] obuf :=
  ⟨rfl, hwf, fun _ _ => rfl, nofun⟩

/-- Tiles of distinct blocks of the grid have no byte in common. -/
theorem not_inTile_of_ne {p q : BlockPos} (hp : p.inGrid c = true) (hq : q.inGrid c = true) (hpq : p ≠ q) (i : Fin 16)
    {j : Nat} (hj : j < bytesPerPixel k) : ¬ inTile k c q (texelOffset k c p i + j) := by
  rintro ⟨i', hle, hlt⟩
  obtain ⟨j', hj'⟩ := Nat.exists_eq_add_of_le hle
  obtain ⟨heq, -, -⟩ := texelByte_injective hp hq hj (by omega) hj'
  exact hpq heq

/-- The tile of a block and then those of the rest are the tiles of all: a later tile overlaps the first only if it
is the same tile. -/
theorem TilesWritten.cons {p : BlockPos} {rest : List BlockPos} {m m' : Memory}
    (hgrid : ∀ q ∈ p :: rest, q.inGrid c = true) (hfirst : TilesWritten c k cbuf obuf [p] m)
    (hrest : TilesWritten c k cbuf m rest m') : TilesWritten c k cbuf obuf (p :: rest) m' where
  len := hrest.len.trans hfirst.len
  wf := hrest.wf
  frame a ha := by
    rw [hrest.frame a fun q hq => ha q (List.mem_cons_of_mem p hq),
      hfirst.frame a fun q hq => ha q (List.mem_singleton.1 hq ▸ List.mem_cons_self)]
  texel q hq block hblock i j hj := by
    by_cases hmem : q ∈ rest
    · exact hrest.texel q hmem block hblock i j hj
    · obtain rfl : q = p := (List.mem_cons.1 hq).resolve_right hmem
      have hapart : ∀ r ∈ rest, ¬ inTile k c r (texelOffset k c q i + j) := fun r hr =>
        not_inTile_of_ne (hgrid q hq) (hgrid r (List.mem_cons_of_mem q hr)) (fun h => hmem (h ▸ hr)) i hj
      rw [hrest.frame _ hapart, hfirst.texel q List.mem_cons_self block hblock i j hj]

/-- Which tiles are written matters, not their order. -/
theorem TilesWritten.of_perm {todo todo' : List BlockPos} {m : Memory} (hperm : todo.Perm todo')
    (h : TilesWritten c k cbuf obuf todo' m) : TilesWritten c k cbuf obuf todo m where
  len := h.len
  wf := h.wf
  frame a ha := h.frame a fun p hp => ha p (hperm.mem_iff.2 hp)
  texel p hp := h.texel p (hperm.mem_iff.1 hp)

/-- The blocks of the grid and the old buffer determine the new one. -/
theorem TilesWritten.unique {todo : List BlockPos} {m m' : Memory} (hcbuf : requiredBytes k c ≤ cbuf.len)
    (hgrid : ∀ p ∈ todo, p.inGrid c = true) (h : TilesWritten c k cbuf obuf todo m)
    (h' : TilesWritten c k cbuf obuf todo m') : m = m' := by
  refine Memory.ext_of_read h.wf h'.wf (h.len.trans h'.len.symm) fun a => ?_
  by_cases ha : ∃ p ∈ todo, inTile k c p a
  · obtain ⟨p, hp, i, hle, hlt⟩ := ha
    obtain ⟨j, rfl⟩ := Nat.exists_eq_add_of_le hle
    obtain ⟨block, hblock⟩ := Memory.readBytes_isSome (le_trans (blockOffset_le (hgrid p hp)) hcbuf)
    have hj : j < bytesPerPixel k := Nat.lt_of_add_lt_add_left hlt
    rw [h.texel p hp block hblock i j hj, h'.texel p hp block hblock i j hj]
  · have hout : ∀ p ∈ todo, ¬ inTile k c p a := fun p hp hin => ha ⟨p, hp, hin⟩
    rw [h.frame a hout, h'.frame a hout]

end

/-! ### One block -/

/-- The move for a block writes its tile and goes on with the rest. -/
theorem bulkMove_block {s : State} {c : BulkCall} {k : BlockKind} {p : BlockPos} {rest : List BlockPos}
    (hinv : s.inv = true) (hbulk : s.bulk = some ⟨c, .blocks k (p :: rest)⟩) :
    ∃ m, bulkMove ⟨c, .blocks k (p :: rest)⟩ s = .next (State.continueBulk { s with obuf := m } c k rest) ∧
      TilesWritten c k s.cbuf s.obuf [p] m := by
  obtain ⟨block, m, hread, -, hmove, hlen, hwf, hframe, htexel⟩ := bulkBlock_spec hinv hbulk
  refine ⟨m, hmove, hlen, hwf, fun a ha => hframe a ?_, fun q hq block' hread' => ?_⟩
  · exact not_exists.1 (ha p List.mem_cons_self)
  · obtain rfl := List.mem_singleton.1 hq
    obtain rfl := Option.some.inj (hread.symm.trans hread')
    exact htexel

/-- Settles O44: the move of `bulkMove_block`, and the turn passed. -/
theorem blockMoveWritesOneTile : Obligations.BlockMoveWritesOneTile := by
  unfold Obligations.BlockMoveWritesOneTile
  intro s c k p rest hinv hreq hbulk
  obtain ⟨-, -, hcbuf, -, hgrid⟩ := inv_blocks hinv hbulk
  obtain ⟨block, hblock⟩ := Memory.readBytes_isSome (le_trans (blockOffset_le (hgrid p List.mem_cons_self)) hcbuf)
  obtain ⟨m, hmove, htile⟩ := bulkMove_block hinv hbulk
  refine ⟨block, _, hblock, by rw [step_of_bulk hreq hbulk, hmove]; rfl, by simp, by simp, by simp [htile.len],
    fun x y j hj => ?_, fun a ha => ?_, fun hrest => ?_, ?_⟩
  · rw [← texelOffset_texelIndex, State.passTurn_obuf, State.continueBulk_obuf]
    exact htile.texel p List.mem_cons_self block hblock _ j hj
  · rw [State.passTurn_obuf, State.continueBulk_obuf]
    exact htile.frame a fun q hq => List.mem_singleton.1 hq ▸ ha
  · rw [continueBulk_of_ne_nil hrest]
    simp
  · rintro rfl
    rw [continueBulk_nil]
    simp

/-! ### All the blocks left -/

/-- The state when the call has returned `OK` with the output buffer `m`. -/
def finishedWith (s : State) (m : Memory) : State := State.returnBulk { s with obuf := m } .ok

/-- Passing the turn does not look at the output buffer or at the call. -/
theorem finishedWith_passTurn (s : State) (m : Memory) :
    finishedWith s.passTurn m = (finishedWith s m).passTurn := by
  obtain ⟨_, others, _, _, _, _⟩ := s
  cases others <;> rfl

/-- Going on with a call and passing the turn can be exchanged. -/
theorem continueBulk_passTurn (s : State) (c : BulkCall) (k : BlockKind) (todo : List BlockPos) :
    s.passTurn.continueBulk c k todo = (s.continueBulk c k todo).passTurn := by
  obtain ⟨_, others, _, _, _, _⟩ := s
  cases others <;> cases todo <;> rfl

/-- What passing the turn keeps, passing it several times keeps. -/
theorem iterate_passTurn {α : Type} {f : State → α} (h : ∀ s : State, f s.passTurn = f s) (n : Nat) (s : State) :
    f (State.passTurn^[n] s) = f s :=
  Function.Iterate.rec (fun t => f t = f s) rfl (fun t ht => (h t).trans ht) n

/-- From a state that meets the invariant and holds no request, the blocks left take one step each, write their
tiles, and the call returns `OK`. -/
theorem steps_blocks {c : BulkCall} {k : BlockKind} {todo : List BlockPos} {s : State}
    (hinv : (s.continueBulk c k todo).inv = true) (hidle : s.allIdle = true) :
    ∃ m, steps todo.length (s.continueBulk c k todo) = .next (State.passTurn^[todo.length] (finishedWith s m)) ∧
      TilesWritten c k s.cbuf s.obuf todo m := by
  induction todo generalizing s with
  | nil => exact ⟨s.obuf, rfl, tilesWritten_nil (inv_obuf (s := s.continueBulk c k []) hinv)⟩
  | cons p rest ih =>
    obtain ⟨-, -, -, -, hgrid⟩ := inv_blocks hinv rfl
    obtain ⟨m, hmove, hfirst⟩ := bulkMove_block hinv rfl
    have hstep : step (s.continueBulk c k (p :: rest)) =
        .next (State.continueBulk (State.passTurn { s with obuf := m }) c k rest) := by
      rw [continueBulk_passTurn]
      exact step_of_bulkMove (s := s.continueBulk c k (p :: rest)) hidle rfl hmove
    obtain ⟨m', hsteps, hrest⟩ := ih (everyStepKeepsTheInvariant _ _ hinv hstep)
      (allIdle_passTurn (s := { s with obuf := m }) hidle)
    rw [State.passTurn_cbuf, State.passTurn_obuf] at hrest
    refine ⟨m', ?_, hfirst.cons hgrid hrest⟩
    rw [List.length_cons, steps_succ hstep, hsteps, finishedWith_passTurn, Function.iterate_succ_apply]
    rfl

/-- Settles O48: both orders take as many steps, and leave the one buffer with the tiles of all the blocks. -/
theorem blockOrderIsFree : Obligations.BlockOrderIsFree := by
  unfold Obligations.BlockOrderIsFree
  intro s c k todo todo' hinv hidle hbulk hperm hne
  obtain ⟨hwf, hkind, hcbuf, hobuf, hgrid⟩ := inv_blocks hinv hbulk
  have hs : s.continueBulk c k todo = s := by rw [continueBulk_of_ne_nil hne, ← hbulk]
  have hs' : s.continueBulk c k todo' = { s with bulk := some ⟨c, .blocks k todo'⟩ } :=
    continueBulk_of_ne_nil (fun h => hne (List.perm_nil.1 (h ▸ hperm))) s c k
  have hinv' : (s.continueBulk c k todo').inv = true :=
    inv_continueBulk hinv (inv_obuf hinv) hwf hkind hcbuf hobuf fun p hp => hgrid p (hperm.mem_iff.2 hp)
  obtain ⟨m, hsteps, hm⟩ := steps_blocks (hs.symm ▸ hinv) hidle
  obtain ⟨m', hsteps', hm'⟩ := steps_blocks hinv' hidle
  obtain rfl := hm.unique hcbuf hgrid (hm'.of_perm hperm)
  rw [hs] at hsteps
  rw [hs', ← hperm.length_eq] at hsteps'
  exact ⟨_, hsteps, hsteps', iterate_passTurn State.passTurn_bulk _ _, iterate_passTurn State.passTurn_bulkStatus _ _⟩

/-! ### The whole image -/

/-- A call that passes its checks comes to all the blocks of its grid in two steps, the output buffer having its
length (R122, R123). -/
theorem steps_checks {s : State} {c : BulkCall} {k : BlockKind} (hinv : s.inv = true) (hidle : s.allIdle = true)
    (hbulk : s.bulk = some ⟨c, .start⟩) (hwf : c.wf = true) (hkind : kindOf c = some k)
    (hlen : requiredBytes k c ≤ s.cbuf.len) :
    ∃ u : State, (∀ n, steps (n + 2) s = steps n (u.continueBulk c k (blockGrid c))) ∧
      (u.continueBulk c k (blockGrid c)).inv = true ∧ u.allIdle = true ∧ u.cbuf = s.cbuf ∧
      u.obuf.len = outputBytes k c := by
  have hmove := bulkMove_start_of_some hwf hkind s
  have hstep := step_of_bulkMove hidle hbulk hmove
  have hidle' := allIdle_passTurn (allIdle_of_bulkMove hmove hidle)
  have hmove' := bulkMove_formatChecked_of_le (s := State.passTurn { s with bulk := some ⟨c, .formatChecked k⟩ })
    (by rwa [State.passTurn_cbuf])
  have hstep' := step_of_bulkMove hidle' (State.passTurn_bulk _) hmove'
  have hinv' := everyStepKeepsTheInvariant _ _ (everyStepKeepsTheInvariant _ _ hinv hstep) hstep'
  rw [← continueBulk_passTurn] at hstep' hinv'
  exact ⟨_, fun n => by rw [steps_succ hstep, steps_succ hstep'], hinv', allIdle_passTurn hidle', by simp,
    by simp [Memory.resize_len]⟩

/-- Settles O47: after the two checks the blocks of the grid write their tiles, and every pixel is a texel of one of
them. -/
theorem bulkCallDecodesTheWholeImage : Obligations.BulkCallDecodesTheWholeImage := by
  unfold Obligations.BulkCallDecodesTheWholeImage
  intro s c k hinv hidle hbulk hwidth hheight hkind hlen
  obtain ⟨u, hchecks, hinvu, hidleu, hcbuf, hobuf⟩ :=
    steps_checks hinv hidle hbulk (bulkCall_wf_iff.2 ⟨hwidth, hheight⟩) hkind hlen
  obtain ⟨m, hblocks, hm⟩ := steps_blocks hinvu hidleu
  have hsteps : steps (2 + c.width / 4 * (c.height / 4)) s =
      .next (State.passTurn^[(blockGrid c).length] (finishedWith u m)) := by
    rw [Nat.add_comm, hchecks, ← hblocks, blockGrid_length, blocksPerRow, blockRows]
  refine ⟨_, hsteps, iterate_passTurn State.passTurn_bulk _ _, iterate_passTurn State.passTurn_bulkStatus _ _,
    (iterate_passTurn State.passTurn_cbuf _ _).trans hcbuf, ?_, fun px py j hpx hpy hj => ?_⟩
  · rw [iterate_passTurn State.passTurn_obuf]
    exact hm.len.trans hobuf
  · have hp := inGrid_of_pixel hwidth hheight hpx hpy
    obtain ⟨block, hblock⟩ := Memory.readBytes_isSome (le_trans (blockOffset_le hp) hlen)
    refine ⟨block, ⟨px % 4, Nat.mod_lt _ (by decide)⟩, ⟨py % 4, Nat.mod_lt _ (by decide)⟩, rfl, rfl, hblock, ?_⟩
    rw [iterate_passTurn State.passTurn_obuf, ← texelOffset_of_pixel]
    exact hm.texel _ (mem_blockGrid.2 hp) block (hcbuf ▸ hblock) (texelOfPixel px py) j hj

end Sys2Proof.Proofs
